-- ==== Sys2Proof/Word.lean ====
section
/-! DEFINITION. The value types of the uuid47 CORE: bytes, 64-bit words, identifiers, and the two
kinds of word the block decodes (spec/00_scope.md R8, R9; spec/30_encoding.md R80). -/

namespace Sys2Proof

/-- A byte, 8 bits (00_scope.md R8). -/
abbrev Byte := BitVec 8

/-- A 64-bit word: a key word, a hash lane, a message block, a digest (00_scope.md R6). -/
abbrev Word64 := BitVec 64

/-- An identifier: 16 bytes, index 0 the most significant (00_scope.md R9, 10_state.md R21). -/
abbrev Identifier := Vector Byte 16

/-- The 36 octets of the text form (10_state.md R28). -/
abbrev Text := Vector Byte 36

/-- A host transaction as the bus carries it: the 11-bit header `WE[10] SIZE[9:8] OFF[7:0]` and, for
a write, the 64-bit WDATA (30_encoding.md R82). -/
structure Request where
  header : BitVec 11
  wdata  : BitVec 64
deriving DecidableEq, Repr

/-- The two kinds of word the block decodes (30_encoding.md R80): a 32-bit command word, and a host
transaction. -/
inductive Encoded where
  | command (w : BitVec 32)
  | bus (r : Request)
deriving DecidableEq, Repr

end Sys2Proof
end

