-- ==== Sys2Proof/Syntax.lean ====
section
/-! DEFINITION. The instructions: the 16 commands and the 8 host transactions, one constructor for
each row of spec/opcode_table.json (spec/30_encoding.md R87). -/

namespace Sys2Proof

/-- One instruction. A command carries the operand of its command word (30_encoding.md R83). A host
transaction carries its offset and, for a write, the bits of WDATA it uses (30_encoding.md R84). -/
inductive Instr where
  /-- NOP (45_control.md R180). -/
  | nop
  /-- SIPINIT (41_keyed_hash.md R102). -/
  | sipinit
  /-- SIPBLK (41_keyed_hash.md R103). -/
  | sipblk
  /-- SIPFIN n: `n` trailing bytes, 0 to 7 (41_keyed_hash.md R104). -/
  | sipfin (n : Nat)
  /-- SIPHASH L: message length in bytes, 0 to 255 (41_keyed_hash.md R105). -/
  | siphash (len : Nat)
  /-- GETVER (42_bitfield.md R121). -/
  | getver
  /-- SETVER v: the version nibble (42_bitfield.md R122). -/
  | setver (v : BitVec 4)
  /-- SETVAR (42_bitfield.md R123). -/
  | setvar
  /-- VALIDATE (42_bitfield.md R124). -/
  | validate
  /-- NEWID (42_bitfield.md R125). -/
  | newid
  /-- PARSE (43_text_codec.md R144). -/
  | parse
  /-- PARSERAW (43_text_codec.md R145). -/
  | parseraw
  /-- FORMAT (43_text_codec.md R146). -/
  | format
  /-- MASK (44_facade.md R162). -/
  | mask
  /-- ENCODE (44_facade.md R163). -/
  | encode
  /-- DECODE (44_facade.md R164). -/
  | decode
  /-- LB off (45_control.md R183). -/
  | lb (off : Byte)
  /-- LH off (45_control.md R184). -/
  | lh (off : Byte)
  /-- LW off (45_control.md R185). -/
  | lw (off : Byte)
  /-- LD off (45_control.md R186). -/
  | ld (off : Byte)
  /-- SB off, v (45_control.md R187). -/
  | sb (off : Byte) (v : BitVec 8)
  /-- SH off, v (45_control.md R188). -/
  | sh (off : Byte) (v : BitVec 16)
  /-- SW off, v (45_control.md R189). -/
  | sw (off : Byte) (v : BitVec 32)
  /-- SD off, v (45_control.md R190). -/
  | sd (off : Byte) (v : BitVec 64)
deriving DecidableEq, Repr

/-- Is the instruction one of the 16 commands (30_encoding.md R80 (1))? -/
def Instr.isCommand : Instr → Bool
  | .nop | .sipinit | .sipblk | .sipfin _ | .siphash _ | .getver | .setver _ | .setvar
  | .validate | .newid | .parse | .parseraw | .format | .mask | .encode | .decode => true
  | .lb _ | .lh _ | .lw _ | .ld _ | .sb _ _ | .sh _ _ | .sw _ _ | .sd _ _ => false

end Sys2Proof
end

