-- ==== Sys2Proof/WellFormed.lean ====
section
/-! DEFINITION. Which instructions have an encoding: SIPFIN's count fits three bits and SIPHASH's
length fits eight (spec/30_encoding.md R81, R83). Every other operand has the width of its field. -/

namespace Sys2Proof

/-- The instruction can be encoded (30_encoding.md R83: `n` in 0..7, `L` in 0..255). -/
def Instr.wellFormed : Instr → Bool
  | .sipfin n => decide (n < 8)
  | .siphash len => decide (len < 256)
  | .nop | .sipinit | .sipblk | .getver | .setver _ | .setvar | .validate | .newid | .parse
  | .parseraw | .format | .mask | .encode | .decode => true
  | .lb _ | .lh _ | .lw _ | .ld _ | .sb _ _ | .sh _ _ | .sw _ _ | .sd _ _ => true

end Sys2Proof
end

