-- ==== Sys2Proof/Decode.lean ====
section
/-! DEFINITION. The decoder of the two kinds of word, the encoder, and the rows of the opcode table
(spec/30_encoding.md R80 to R88, R91). -/

namespace Sys2Proof

/-- Why a command word is illegal, the three clauses of 30_encoding.md R86. All three are reported to
the host as the one code IllegalCommand. -/
inductive Illegal where
  /-- Clause (1): a bit of `w[31:16]` is 1. -/
  | reservedBits
  /-- Clause (2): `w[7:0]` is no assigned opcode. -/
  | unassignedOpcode
  /-- Clause (3): the form requires operand bits to be zero and one of them is 1. -/
  | operandBits
deriving DecidableEq, Repr

/-- OPC, bits 7:0 of a command word (30_encoding.md R81). -/
def opcField (w : BitVec 32) : Byte := w.extractLsb' 0 8

/-- IMM, bits 15:8 of a command word (30_encoding.md R81). -/
def immField (w : BitVec 32) : Byte := w.extractLsb' 8 8

/-- RSV, bits 31:16 of a command word (30_encoding.md R81). -/
def rsvField (w : BitVec 32) : BitVec 16 := w.extractLsb' 16 16

/-- Form Z: IMM must be zero (30_encoding.md R81). -/
def decodeZ (imm : Byte) (i : Instr) : Except Illegal Instr :=
  if imm = 0#8 then .ok i else .error .operandBits

/-- Form N3: IMM[7:3] must be zero, IMM[2:0] is the operand (30_encoding.md R81). -/
def decodeN3 (imm : Byte) (i : Nat → Instr) : Except Illegal Instr :=
  if imm.extractLsb' 3 5 = 0#5 then .ok (i (imm.extractLsb' 0 3).toNat) else .error .operandBits

/-- Form V4: IMM[7:4] must be zero, IMM[3:0] is the operand (30_encoding.md R81). -/
def decodeV4 (imm : Byte) (i : BitVec 4 → Instr) : Except Illegal Instr :=
  if imm.extractLsb' 4 4 = 0#4 then .ok (i (imm.extractLsb' 0 4)) else .error .operandBits

/-- The command a word stands for, or the clause that makes it illegal (30_encoding.md R86). -/
def decodeCommand (w : BitVec 32) : Except Illegal Instr :=
  if rsvField w ≠ 0#16 then .error .reservedBits
  else
    match opcField w with
    | 0x00#8 => decodeZ (immField w) .nop
    | 0x10#8 => decodeZ (immField w) .sipinit
    | 0x11#8 => decodeZ (immField w) .sipblk
    | 0x12#8 => decodeN3 (immField w) .sipfin
    | 0x13#8 => .ok (.siphash (immField w).toNat)
    | 0x20#8 => decodeZ (immField w) .getver
    | 0x21#8 => decodeV4 (immField w) .setver
    | 0x22#8 => decodeZ (immField w) .setvar
    | 0x23#8 => decodeZ (immField w) .validate
    | 0x24#8 => decodeZ (immField w) .newid
    | 0x30#8 => decodeZ (immField w) .parse
    | 0x31#8 => decodeZ (immField w) .parseraw
    | 0x32#8 => decodeZ (immField w) .format
    | 0x40#8 => decodeZ (immField w) .mask
    | 0x41#8 => decodeZ (immField w) .encode
    | 0x42#8 => decodeZ (immField w) .decode
    | _ => .error .unassignedOpcode

/-- OFF, bits 7:0 of a request header (30_encoding.md R82). -/
def Request.off (r : Request) : Byte := r.header.extractLsb' 0 8

/-- SIZE, bits 9:8 of a request header: the access is 2^SIZE bytes wide (30_encoding.md R82). -/
def Request.size (r : Request) : BitVec 2 := r.header.extractLsb' 8 2

/-- WE, bit 10 of a request header: 1 is a write (30_encoding.md R82). -/
def Request.we (r : Request) : Bool := r.header.getLsbD 10

/-- The host transaction a request stands for. Every header has one (30_encoding.md R87), and a write
keeps only the bits of WDATA it stores (30_encoding.md R84). -/
def decodeRequest (r : Request) : Instr :=
  match r.we, r.size.toNat with
  | false, 0 => .lb r.off
  | false, 1 => .lh r.off
  | false, 2 => .lw r.off
  | false, _ => .ld r.off
  | true, 0 => .sb r.off (r.wdata.extractLsb' 0 8)
  | true, 1 => .sh r.off (r.wdata.extractLsb' 0 16)
  | true, 2 => .sw r.off (r.wdata.extractLsb' 0 32)
  | true, _ => .sd r.off r.wdata

/-- The decoder of both kinds of word (30_encoding.md R80). -/
def decode : Encoded → Except Illegal Instr
  | .command w => decodeCommand w
  | .bus r => .ok (decodeRequest r)

/-- The command word `RSV = 0, IMM, OPC` (30_encoding.md R81). -/
def commandWord (opc imm : Byte) : BitVec 32 := 0#16 ++ imm ++ opc

/-- The request header `WE SIZE OFF` (30_encoding.md R82). -/
def busHeader (we : Bool) (size : BitVec 2) (off : Byte) : BitVec 11 :=
  BitVec.ofBool we ++ size ++ off

/-- The word of an instruction, from the encoding tables of 30_encoding.md R81, R82 and R87. A read
carries no write data, and a narrow write leaves the unused bits of WDATA zero. -/
def encode : Instr → Encoded
  | .nop => .command (commandWord 0x00#8 0#8)
  | .sipinit => .command (commandWord 0x10#8 0#8)
  | .sipblk => .command (commandWord 0x11#8 0#8)
  | .sipfin n => .command (commandWord 0x12#8 (BitVec.ofNat 8 n))
  | .siphash len => .command (commandWord 0x13#8 (BitVec.ofNat 8 len))
  | .getver => .command (commandWord 0x20#8 0#8)
  | .setver v => .command (commandWord 0x21#8 (v.setWidth 8))
  | .setvar => .command (commandWord 0x22#8 0#8)
  | .validate => .command (commandWord 0x23#8 0#8)
  | .newid => .command (commandWord 0x24#8 0#8)
  | .parse => .command (commandWord 0x30#8 0#8)
  | .parseraw => .command (commandWord 0x31#8 0#8)
  | .format => .command (commandWord 0x32#8 0#8)
  | .mask => .command (commandWord 0x40#8 0#8)
  | .encode => .command (commandWord 0x41#8 0#8)
  | .decode => .command (commandWord 0x42#8 0#8)
  | .lb off => .bus ⟨busHeader false 0#2 off, 0#64⟩
  | .lh off => .bus ⟨busHeader false 1#2 off, 0#64⟩
  | .lw off => .bus ⟨busHeader false 2#2 off, 0#64⟩
  | .ld off => .bus ⟨busHeader false 3#2 off, 0#64⟩
  | .sb off v => .bus ⟨busHeader true 0#2 off, v.setWidth 64⟩
  | .sh off v => .bus ⟨busHeader true 1#2 off, v.setWidth 64⟩
  | .sw off v => .bus ⟨busHeader true 2#2 off, v.setWidth 64⟩
  | .sd off v => .bus ⟨busHeader true 3#2 off, v⟩

/-- The offset of CMD (20_memory.md R51, 30_encoding.md R85). -/
abbrev cmdOffset : Byte := 0x3C#8

/-- The transaction that issues a command word, `SW 0x3C, w` (30_encoding.md R85, R91). -/
def issueRequest (w : BitVec 32) : Request := ⟨busHeader true 2#2 cmdOffset, w.setWidth 64⟩

/-- The request by which the host has an instruction performed: a host transaction as it is, a
command through the transaction that issues its word (30_encoding.md R91). -/
def requestOf (i : Instr) : Request :=
  match encode i with
  | .command w => issueRequest w
  | .bus r => r

/-- A row of the opcode table: a word `w` is in the row when `w &&& mask = pattern`
(30_encoding.md R87). -/
structure OpcodeRow where
  mnemonic : String
  pattern  : Nat
  mask     : Nat
deriving DecidableEq, Repr

/-- The row of each instruction: over the 32-bit command word for a command, over the 11-bit header
for a host transaction (30_encoding.md R87). -/
def Instr.row : Instr → OpcodeRow
  | .nop => ⟨"NOP", 0x00000000, 0xFFFFFFFF⟩
  | .sipinit => ⟨"SIPINIT", 0x00000010, 0xFFFFFFFF⟩
  | .sipblk => ⟨"SIPBLK", 0x00000011, 0xFFFFFFFF⟩
  | .sipfin _ => ⟨"SIPFIN", 0x00000012, 0xFFFFF8FF⟩
  | .siphash _ => ⟨"SIPHASH", 0x00000013, 0xFFFF00FF⟩
  | .getver => ⟨"GETVER", 0x00000020, 0xFFFFFFFF⟩
  | .setver _ => ⟨"SETVER", 0x00000021, 0xFFFFF0FF⟩
  | .setvar => ⟨"SETVAR", 0x00000022, 0xFFFFFFFF⟩
  | .validate => ⟨"VALIDATE", 0x00000023, 0xFFFFFFFF⟩
  | .newid => ⟨"NEWID", 0x00000024, 0xFFFFFFFF⟩
  | .parse => ⟨"PARSE", 0x00000030, 0xFFFFFFFF⟩
  | .parseraw => ⟨"PARSERAW", 0x00000031, 0xFFFFFFFF⟩
  | .format => ⟨"FORMAT", 0x00000032, 0xFFFFFFFF⟩
  | .mask => ⟨"MASK", 0x00000040, 0xFFFFFFFF⟩
  | .encode => ⟨"ENCODE", 0x00000041, 0xFFFFFFFF⟩
  | .decode => ⟨"DECODE", 0x00000042, 0xFFFFFFFF⟩
  | .lb _ => ⟨"LB", 0x000, 0x700⟩
  | .lh _ => ⟨"LH", 0x100, 0x700⟩
  | .lw _ => ⟨"LW", 0x200, 0x700⟩
  | .ld _ => ⟨"LD", 0x300, 0x700⟩
  | .sb _ _ => ⟨"SB", 0x400, 0x700⟩
  | .sh _ _ => ⟨"SH", 0x500, 0x700⟩
  | .sw _ _ => ⟨"SW", 0x600, 0x700⟩
  | .sd _ _ => ⟨"SD", 0x700, 0x700⟩

/-- The bits the opcode table numbers, of either kind of word: the 32 of a command word, or the 11 of
a request header (30_encoding.md R87). -/
def Encoded.tableBits : Encoded → Nat
  | .command w => w.toNat
  | .bus r => r.header.toNat

/-- The word a row of spec/opcode_table.json numbers: a row of at most 16 bits is a request header
(11 bits, so in whole bytes 16, with WDATA zero), a longer row is a command word. None where the
number does not fit the word. Log entry 8. -/
def encodedOfTable (nbits w : Nat) : Option Encoded :=
  if nbits ≤ 16 then
    if w < 2 ^ 11 then some (.bus ⟨BitVec.ofNat 11 w, 0#64⟩) else none
  else
    if w < 2 ^ 32 then some (.command (BitVec.ofNat 32 w)) else none

/-- The instruction the decoder reads from a word numbered as spec/opcode_table.json numbers it. -/
def decodeTableWord (nbits w : Nat) : Option Instr :=
  match encodedOfTable nbits w with
  | some e => (decode e).toOption
  | none => none

end Sys2Proof
end

