-- ==== Sys2Proof/Config.lean ====
section
/-! DEFINITION. The parameters of the hardware: those the source fixes and those the spec decides
(spec/00_scope.md R6, R7), and the one the spec leaves open (spec/20_memory.md R63). -/

namespace Sys2Proof

/-- Compression rounds per block (00_scope.md R6, C_ROUNDS). -/
abbrev Config.cRounds : Nat := 2

/-- Finalization rounds (00_scope.md R6, D_ROUNDS). -/
abbrev Config.dRounds : Nat := 4

/-- The finalization constant XORed into lane 2 (00_scope.md R6, FINAL_XOR). -/
abbrev Config.finalXor : Word64 := 0xff#64

/-- The length of the text form, in octets (00_scope.md R6, TEXT_LEN). -/
abbrev Config.textLen : Nat := 36

/-- The bytes of the one-shot message buffer (00_scope.md R7, MSG_BYTES). -/
abbrev Config.msgBytes : Nat := 32

/-- WINDOW_BASE, where the window sits in the host's own address space: the platform's choice, read
by no rule of the spec (20_memory.md R63) and by no definition of this model. Log entry 6. -/
opaque Config.windowBase : Nat

end Sys2Proof
end

