-- ==== Sys2Proof/Machine/State.lean ====
section
/-! DEFINITION. The state of the uuid47 CORE as plain data, the codes of STATUS, the reasons a step
can stop, and the state after reset (spec/10_state.md R20 to R41, spec/70_reset_and_hazards.md R230). -/

namespace Sys2Proof.Machine

/-- The result codes STATUS.CODE can hold (10_state.md R33). -/
inductive Code where
  | ok
  | invalidLength
  | invalidHex
  | invalidVersion
  | invalidVariant
  | illegalCommand
  | invalidOperand
deriving DecidableEq, Repr

/-- The four 64-bit SipHash lanes (10_state.md R26). -/
structure Lanes where
  v0 : Word64
  v1 : Word64
  v2 : Word64
  v3 : Word64
deriving DecidableEq, Repr

/-- What reaches the block from outside, one item at a time: a host access, or a new level of the
reset input (20_memory.md R65, 70_reset_and_hazards.md R230). Log entries 1 and 3. -/
inductive Input where
  | access (r : Request)
  | resetLine (asserted : Bool)
deriving DecidableEq, Repr

/-- The state of the machine. The registers are those of the table in 10_state.md section 1; the last
three fields are the reset input and the model's own two fields for the host's side of the bus. -/
structure State where
  /-- ID, the identifier register (10_state.md R21). -/
  id : Identifier
  /-- KEY0 (10_state.md R22). -/
  key0 : Word64
  /-- KEY1 (10_state.md R22). -/
  key1 : Word64
  /-- DIN, the data-in register of the streaming hash (10_state.md R23). -/
  din : Word64
  /-- DIGEST, the output of the last finalization (10_state.md R24). -/
  digest : Word64
  /-- RES, the result of GETVER and MASK (10_state.md R25). -/
  res : Word64
  /-- STATUS: CODE in bits 3:0, ERR in bit 7 (10_state.md R32). -/
  status : Byte
  /-- STRLEN, the length of the text in STR (10_state.md R29). -/
  strlen : Byte
  /-- SLEN, the bytes absorbed by the hash in progress, modulo 256 (10_state.md R27). -/
  slen : Byte
  /-- STR, the text buffer (10_state.md R28). -/
  str : Text
  /-- MSG, the message buffer of SIPHASH (10_state.md R30). -/
  msg : Vector Byte 32
  /-- V0 to V3, the hidden hash lanes (10_state.md R26). -/
  lanes : Lanes
  /-- The reset input is asserted (70_reset_and_hazards.md R230). -/
  inReset : Bool
  /-- The inputs not yet performed, in the one order of 20_memory.md R65. Log entry 1. -/
  inputs : List Input
  /-- RDATA of the last read performed (30_encoding.md R82, R84), none before the first. Log entry 2. -/
  rdata : Option Word64
deriving DecidableEq, Repr

/-- Why a step stops the machine. -/
inductive Fault where
  /-- A misaligned host access (20_memory.md R56, 60_exceptions.md R204, R216 (2)); raised by LH, LW,
  LD, SH, SW and SD. Safe: the machine stops, where a host could go on with its next access. -/
  | busError
  /-- A host access waits while reset is asserted and no later input releases reset
  (70_reset_and_hazards.md R230, 93 S10: stuck); raised by the step. Safe: nothing is performed. -/
  | heldInReset
deriving DecidableEq, Repr

/-- Why a step has no meaning. The spec has no such case (60_exceptions.md R216 (3)). -/
inductive Refusal where
  /-- An instruction whose arm has no meaning yet; raised by no arm of this model. Safe. -/
  | notModelled (mnemonic : String)
deriving DecidableEq, Repr

/-- The machine after reset, which power-on performs (10_state.md R41, 70_reset_and_hazards.md R230):
every register zero, reset released, no host access placed, nothing read yet. -/
def State.reset : State where
  id := Vector.replicate 16 0#8
  key0 := 0#64
  key1 := 0#64
  din := 0#64
  digest := 0#64
  res := 0#64
  status := 0#8
  strlen := 0#8
  slen := 0#8
  str := Vector.replicate 36 0#8
  msg := Vector.replicate 32 0#8
  lanes := ⟨0#64, 0#64, 0#64, 0#64⟩
  inReset := false
  inputs := []
  rdata := none

end Sys2Proof.Machine
end

