-- ==== Sys2Proof/Machine/Flags.lean ====
section
/-! DEFINITION. STATUS, the only flag state: its two fields, the value a read sees, and the three ways
it changes (spec/10_state.md R32 to R34, R37; spec/60_exceptions.md R202, R203). -/

namespace Sys2Proof.Machine

/-- The number of a result code (10_state.md R33). -/
def codeBits : Code → BitVec 4
  | .ok => 0#4
  | .invalidLength => 1#4
  | .invalidHex => 2#4
  | .invalidVersion => 3#4
  | .invalidVariant => 4#4
  | .illegalCommand => 5#4
  | .invalidOperand => 6#4

/-- STATUS.CODE, bits 3:0 (10_state.md R32). -/
def State.code (s : State) : BitVec 4 := s.status.extractLsb' 0 4

/-- STATUS.ERR, bit 7 (10_state.md R32). -/
def State.err (s : State) : Bool := s.status.getLsbD 7

/-- What a read of STATUS returns, `(ERR << 7) | CODE`: reserved bits 6:4 read 0 (10_state.md R32,
45_control.md R182). -/
def statusRead (st : Byte) : Byte := st &&& 0x8F#8

/-- STATUS after a command that completes: CODE is OK, ERR is kept (60_exceptions.md R202). -/
def statusCompleted (st : Byte) : Byte := st &&& 0xF0#8

/-- STATUS after a command that fails: CODE is the code, ERR is 1 (60_exceptions.md R203). -/
def statusFailed (c : Code) (st : Byte) : Byte :=
  (st &&& 0x70#8) ||| 0x80#8 ||| (codeBits c).setWidth 8

/-- STATUS after a host write of the byte `x`: bit 7 of `x` clears ERR, every other bit is ignored
(10_state.md R32, R34; 20_memory.md R57). -/
def statusWritten (x st : Byte) : Byte := if x.getLsbD 7 then st &&& 0x7F#8 else st

end Sys2Proof.Machine
end

