-- ==== Sys2Proof/Machine/Operands.lean ====
section
/-! DEFINITION. Byte order, the fields of an identifier, and the operand forms of the commands and of
the host transactions (spec/00_scope.md R11, R12; spec/10_state.md R21; spec/30_encoding.md R83, R84). -/

namespace Sys2Proof.Machine

/-- Byte `j` of a 64-bit word, bits `[8j+7:8j]` (20_memory.md R51). -/
def byteOf (w : Word64) (j : Nat) : Byte := w.extractLsb' (8 * j) 8

/-- The word with byte `j` replaced (20_memory.md R58). -/
def putByte (w : Word64) (j : Nat) (x : Byte) : Word64 :=
  (w &&& ~~~(0xFF#64 <<< (8 * j))) ||| (x.setWidth 64 <<< (8 * j))

/-- `le64`: the first byte is least significant, absent bytes are zero (00_scope.md R12). -/
def le64 : List Byte → Word64
  | [] => 0#64
  | b :: bs => b.setWidth 64 ||| (le64 bs <<< 8)

/-- An access of `n` bytes at `off` is aligned when `off mod n = 0` (20_memory.md R55). -/
def aligned (off : Byte) (n : Nat) : Bool := decide (off.toNat % n = 0)

/-- SIPFIN's tail, `DIN[8n-1:0]`, zero when `n = 0` (41_keyed_hash.md R104). -/
def tailOf (din : Word64) (n : Nat) : Word64 := din &&& BitVec.ofNat 64 (2 ^ (8 * n) - 1)

/-- The final block: the length byte over the tail (41_keyed_hash.md R104, R106). -/
def finalBlock (len8 : Byte) (tail : Word64) : Word64 := (len8.setWidth 64 <<< 56) ||| tail

/-- The version nibble, `ID[6][7:4]` (42_bitfield.md R120). -/
def versionOf (id : Identifier) : BitVec 4 := id[6].extractLsb' 4 4

/-- The variant bits, `ID[8][7:6]` (42_bitfield.md R120). -/
def variantOf (id : Identifier) : BitVec 2 := id[8].extractLsb' 6 2

/-- Is the version nibble valid, 4 or 7 (00_scope.md R6, VALID_VERSIONS)? -/
def versionValid (id : Identifier) : Bool := versionOf id == 4#4 || versionOf id == 7#4

/-- Are the variant bits valid, binary `10` (00_scope.md R6, VARIANT)? -/
def variantValid (id : Identifier) : Bool := variantOf id == 0b10#2

/-- `ID[6] <- (v << 4) | (ID[6] & 0x0F)` (42_bitfield.md R122). -/
def withVersion (v : BitVec 4) (id : Identifier) : Identifier :=
  id.set 6 ((v.setWidth 8 <<< 4) ||| (id[6] &&& 0x0F#8))

/-- `ID[8] <- 0x80 | (ID[8] & 0x3F)` (42_bitfield.md R123). -/
def withVariant (id : Identifier) : Identifier := id.set 8 (0x80#8 ||| (id[8] &&& 0x3F#8))

/-- The timestamp field, `be48(ID[0], .., ID[5])` (00_scope.md R12, 20_memory.md R54). -/
def timestampOf (id : Identifier) : BitVec 48 :=
  id[0] ++ id[1] ++ id[2] ++ id[3] ++ id[4] ++ id[5]

/-- `for j in 0..5: ID[j] <- ts[47-8j : 40-8j]`, the big-endian write-back (44_facade.md R163). -/
def withTimestamp (ts : BitVec 48) (id : Identifier) : Identifier :=
  (((((id.set 0 (ts.extractLsb' 40 8)).set 1 (ts.extractLsb' 32 8)).set 2
    (ts.extractLsb' 24 8)).set 3 (ts.extractLsb' 16 8)).set 4 (ts.extractLsb' 8 8)).set 5
    (ts.extractLsb' 0 8)

/-- The empty identifier: version 7, variant `10`, every other bit zero (42_bitfield.md R125). -/
def emptyId : Identifier :=
  #v[0x00#8, 0x00#8, 0x00#8, 0x00#8, 0x00#8, 0x00#8, 0x70#8, 0x00#8,
     0x80#8, 0x00#8, 0x00#8, 0x00#8, 0x00#8, 0x00#8, 0x00#8, 0x00#8]

end Sys2Proof.Machine
end

