-- ==== Sys2Proof/Machine/Ops.lean ====
section
/-! DEFINITION. The named operations over the registers: the byte view of the register window, wide
accesses, the end of a command (completion, failure), a read's response, and reset
(spec/20_memory.md R50 to R61, spec/45_control.md R182, spec/60_exceptions.md R200 to R208). -/

namespace Sys2Proof.Machine

/-- `rbyte(a)`, the value a read sees at offset `a` (45_control.md R182, 20_memory.md R51, R57). -/
def rbyte (s : State) (a : Nat) : Byte :=
  if h : a < 0x10 then s.id[a]
  else if a < 0x20 then 0#8
  else if a < 0x28 then byteOf s.din (a - 0x20)
  else if a < 0x30 then byteOf s.digest (a - 0x28)
  else if a < 0x38 then byteOf s.res (a - 0x30)
  else if a = 0x38 then statusRead s.status
  else if a = 0x39 then s.strlen
  else if a = 0x3A then s.slen
  else if a < 0x40 then 0#8
  else if h : a - 0x40 < 36 then s.str[a - 0x40]
  else if a < 0x80 then 0#8
  else if h : a - 0x80 < 32 then s.msg[a - 0x80]
  else 0#8

/-- `wbyte(a, x)`, what a write of the byte `x` does at offset `a`: nothing at a read-only, reserved
or CMD byte (45_control.md R182, 20_memory.md R51, R57). -/
def wbyte (s : State) (a : Nat) (x : Byte) : State :=
  if h : a < 0x10 then { s with id := s.id.set a x }
  else if a < 0x18 then { s with key0 := putByte s.key0 (a - 0x10) x }
  else if a < 0x20 then { s with key1 := putByte s.key1 (a - 0x18) x }
  else if a < 0x28 then { s with din := putByte s.din (a - 0x20) x }
  else if a < 0x38 then s
  else if a = 0x38 then { s with status := statusWritten x s.status }
  else if a = 0x39 then { s with strlen := x }
  else if a < 0x40 then s
  else if h : a - 0x40 < 36 then { s with str := s.str.set (a - 0x40) x }
  else if a < 0x80 then s
  else if h : a - 0x80 < 32 then { s with msg := s.msg.set (a - 0x80) x }
  else s

/-- `MemRead(a, n)`: the little-endian value of the `n` bytes from offset `a`, zero-extended
(20_memory.md R52, 45_control.md R182, 30_encoding.md R84). -/
def memRead (s : State) (a : Nat) : Nat → Word64
  | 0 => 0#64
  | n + 1 => (rbyte s a).setWidth 64 ||| (memRead s (a + 1) n <<< 8)

/-- `MemWrite(a, n, v)`: byte `j` of `v` is written at offset `a + j`, for `j` below `n`
(45_control.md R182). -/
def memWrite (s : State) (a : Nat) (v : Word64) : Nat → State
  | 0 => s
  | n + 1 => memWrite (wbyte s a (byteOf v 0)) (a + 1) (v >>> 8) n

/-- A command completes: STATUS.CODE gets OK, its last act (60_exceptions.md R202). -/
def State.complete (s : State) : State := { s with status := statusCompleted s.status }

/-- `raise Fail(c)`: STATUS.CODE gets the code, STATUS.ERR gets 1, every other register keeps its
value; nothing is saved and no handler is entered (60_exceptions.md R203, R207; 00_scope.md R13). A
failure has no return (60_exceptions.md R208). -/
def State.fail (c : Code) (s : State) : State := { s with status := statusFailed c s.status }

/-- A read answers the host with RDATA (30_encoding.md R82). -/
def State.respond (v : Word64) (s : State) : State := { s with rdata := some v }

/-- A new level of the reset input. Asserting it puts every register at its reset value, in one step;
releasing it changes no register (70_reset_and_hazards.md R230). The inputs still to come and what the
host has read are no registers of the block and stay (log entries 2 and 3). -/
def State.driveReset (asserted : Bool) (s : State) : State :=
  if asserted then { State.reset with inReset := true, inputs := s.inputs, rdata := s.rdata }
  else { s with inReset := false }

end Sys2Proof.Machine
end

