-- ==== Sys2Proof/Machine/Control.lean ====
section
/-! DEFINITION. The control command NOP (spec/45_control.md R180). -/

namespace Sys2Proof.Machine

/-- NOP: complete with CODE = OK (45_control.md R180). -/
def execNop (s : State) : Host.Outcome State Fault Refusal := .next s.complete

end Sys2Proof.Machine
end

