-- ==== Sys2Proof/Machine/KeyedHash.lean ====
section
/-! DEFINITION. The KeyedHash family: SipHash-2-4 and the commands SIPINIT, SIPBLK, SIPFIN and SIPHASH
(spec/41_keyed_hash.md R100 to R106). The initialization constants and the round function are the
spec's own text, which it marks as general knowledge (spec/93_implementation_defined.md G1, G2). -/

namespace Sys2Proof.Machine

/-- `rotl64(x, r)` for `0 < r < 64` (00_scope.md R11). -/
def rotl64 (x : Word64) (r : Nat) : Word64 := (x <<< r) ||| (x >>> (64 - r))

/-- The lanes of SIPINIT: the constants XORed with `(k0, k1, k0, k1)` (41_keyed_hash.md R100). -/
def initLanes (k0 k1 : Word64) : Lanes where
  v0 := 0x736f6d6570736575#64 ^^^ k0
  v1 := 0x646f72616e646f6d#64 ^^^ k1
  v2 := 0x6c7967656e657261#64 ^^^ k0
  v3 := 0x7465646279746573#64 ^^^ k1

/-- SipRound, its statements in the order of 41_keyed_hash.md R101. -/
def sipRound (l : Lanes) : Lanes :=
  let v0 := l.v0 + l.v1
  let v1 := rotl64 l.v1 13
  let v1 := v1 ^^^ v0
  let v0 := rotl64 v0 32
  let v2 := l.v2 + l.v3
  let v3 := rotl64 l.v3 16
  let v3 := v3 ^^^ v2
  let v0 := v0 + v3
  let v3 := rotl64 v3 21
  let v3 := v3 ^^^ v0
  let v2 := v2 + v1
  let v1 := rotl64 v1 17
  let v1 := v1 ^^^ v2
  let v2 := rotl64 v2 32
  ⟨v0, v1, v2, v3⟩

/-- `n` rounds. -/
def sipRounds : Nat → Lanes → Lanes
  | 0, l => l
  | n + 1, l => sipRounds n (sipRound l)

/-- Absorb one block: `V3 ^= b`, two rounds, `V0 ^= b` (41_keyed_hash.md R103, R106 step 2). -/
def absorb (b : Word64) (l : Lanes) : Lanes :=
  let m := sipRounds Config.cRounds { l with v3 := l.v3 ^^^ b }
  { m with v0 := m.v0 ^^^ b }

/-- Finalize: `V2 ^= 0xff`, four rounds (41_keyed_hash.md R104, R106 step 4). -/
def finalize (l : Lanes) : Lanes :=
  sipRounds Config.dRounds { l with v2 := l.v2 ^^^ Config.finalXor }

/-- The output, the XOR of the four lanes (41_keyed_hash.md R106 step 5). -/
def digestOf (l : Lanes) : Word64 := l.v0 ^^^ l.v1 ^^^ l.v2 ^^^ l.v3

/-- Block `i` of a message, `le64(m[8i], .., m[8i+7])` (41_keyed_hash.md R106 step 2). -/
def messageBlock (m : List Byte) (i : Nat) : Word64 := le64 ((m.drop (8 * i)).take 8)

/-- The last block: the trailing `len mod 8` bytes, zero-padded, under `len mod 256`
(41_keyed_hash.md R106 step 3). -/
def lastBlock (m : List Byte) : Word64 :=
  finalBlock (BitVec.ofNat 8 m.length) (le64 (m.drop (8 * (m.length / 8))))

/-- The lanes at the end of `siphash24` of a message (41_keyed_hash.md R106). -/
def hashLanes (m : List Byte) (k0 k1 : Word64) : Lanes :=
  finalize (absorb (lastBlock m)
    ((List.range (m.length / 8)).foldl (fun l i => absorb (messageBlock m i) l)
      (initLanes k0 k1)))

/-- `siphash24(m, len, k0, k1)` (41_keyed_hash.md R106). -/
def siphash24 (m : List Byte) (k0 k1 : Word64) : Word64 := digestOf (hashLanes m k0 k1)

/-- A whole hash on the shared datapath, by SIPHASH and the facade mask: the lanes end as the hash
leaves them, SLEN gets the length, DIGEST the digest (41_keyed_hash.md R105, 44_facade.md R161). -/
def State.hashMessage (m : List Byte) (s : State) : State :=
  { s with
    lanes := hashLanes m s.key0 s.key1
    slen := BitVec.ofNat 8 m.length
    digest := siphash24 m s.key0 s.key1 }

/-- SIPINIT (41_keyed_hash.md R102). -/
def execSipinit (s : State) : Host.Outcome State Fault Refusal :=
  .next { s with lanes := initLanes s.key0 s.key1, slen := 0#8 }.complete

/-- SIPBLK (41_keyed_hash.md R103). -/
def execSipblk (s : State) : Host.Outcome State Fault Refusal :=
  .next { s with lanes := absorb s.din s.lanes, slen := s.slen + 8#8 }.complete

/-- SIPFIN n (41_keyed_hash.md R104). -/
def execSipfin (n : Nat) (s : State) : Host.Outcome State Fault Refusal :=
  let len8 := s.slen + BitVec.ofNat 8 n
  let l := finalize (absorb (finalBlock len8 (tailOf s.din n)) s.lanes)
  .next { s with lanes := l, digest := digestOf l, slen := len8 }.complete

/-- SIPHASH L: InvalidOperand when L > 32 (41_keyed_hash.md R105). -/
def execSiphash (len : Nat) (s : State) : Host.Outcome State Fault Refusal :=
  if len > Config.msgBytes then .next (s.fail .invalidOperand)
  else .next (s.hashMessage (s.msg.toList.take len)).complete

end Sys2Proof.Machine
end

