-- ==== Sys2Proof/Machine/Facade.lean ====
section
/-! DEFINITION. The FacadeTransform family: the invariant message, the mask, and MASK, ENCODE and
DECODE (spec/44_facade.md R160 to R164). -/

namespace Sys2Proof.Machine

/-- The 10-byte invariant message M (44_facade.md R160). -/
def invariantMessage (id : Identifier) : List Byte :=
  [id[6] &&& 0x0F#8, id[7], id[8] &&& 0x3F#8,
   id[9], id[10], id[11], id[12], id[13], id[14], id[15]]

/-- mask48, the low 48 bits of the digest of M (44_facade.md R161). -/
def mask48 (id : Identifier) (k0 k1 : Word64) : BitVec 48 :=
  (siphash24 (invariantMessage id) k0 k1).extractLsb' 0 48

/-- The registers `computeMask()` writes: V0 to V3, SLEN and DIGEST (44_facade.md R161). -/
def State.computeMask (s : State) : State := s.hashMessage (invariantMessage s.id)

/-- The new identifier of ENCODE and DECODE: the timestamp XORed with the mask, the version nibble
set, the variant bits forced to `10` (44_facade.md R163, R164). -/
def transformId (v : BitVec 4) (m : BitVec 48) (id : Identifier) : Identifier :=
  withVariant (withVersion v (withTimestamp (timestampOf id ^^^ m) id))

/-- MASK (44_facade.md R162). -/
def execMask (s : State) : Host.Outcome State Fault Refusal :=
  .next { s.computeMask with res := (mask48 s.id s.key0 s.key1).setWidth 64 }.complete

/-- ENCODE: version 4 (44_facade.md R163). -/
def execEncode (s : State) : Host.Outcome State Fault Refusal :=
  .next { s.computeMask with
    id := transformId 4#4 (mask48 s.id s.key0 s.key1) s.id }.complete

/-- DECODE: version 7 (44_facade.md R164). -/
def execDecode (s : State) : Host.Outcome State Fault Refusal :=
  .next { s.computeMask with
    id := transformId 7#4 (mask48 s.id s.key0 s.key1) s.id }.complete

end Sys2Proof.Machine
end

