-- ==== Sys2Proof/Machine/Bitfield.lean ====
section
/-! DEFINITION. The BitfieldOps family: GETVER, SETVER, SETVAR, VALIDATE and NEWID
(spec/42_bitfield.md R120 to R125). -/

namespace Sys2Proof.Machine

/-- The check of version, then variant, of VALIDATE and PARSE: the code of the first that is wrong
(42_bitfield.md R124, 43_text_codec.md R144, 60_exceptions.md R206). -/
def checkId (id : Identifier) : Option Code :=
  if !versionValid id then some .invalidVersion
  else if !variantValid id then some .invalidVariant
  else none

/-- GETVER (42_bitfield.md R121). -/
def execGetver (s : State) : Host.Outcome State Fault Refusal :=
  .next { s with res := (versionOf s.id).setWidth 64 }.complete

/-- SETVER v (42_bitfield.md R122). -/
def execSetver (v : BitVec 4) (s : State) : Host.Outcome State Fault Refusal :=
  .next { s with id := withVersion v s.id }.complete

/-- SETVAR (42_bitfield.md R123). -/
def execSetvar (s : State) : Host.Outcome State Fault Refusal :=
  .next { s with id := withVariant s.id }.complete

/-- VALIDATE (42_bitfield.md R124). -/
def execValidate (s : State) : Host.Outcome State Fault Refusal :=
  match checkId s.id with
  | some c => .next (s.fail c)
  | none => .next s.complete

/-- NEWID (42_bitfield.md R125). -/
def execNewid (s : State) : Host.Outcome State Fault Refusal :=
  .next { s with id := emptyId }.complete

end Sys2Proof.Machine
end

