-- ==== Sys2Proof/Machine/TextCodec.lean ====
section
/-! DEFINITION. The TextCodec family: the strict parser and the lowercase formatter of the 36-octet
text form, and PARSE, PARSERAW and FORMAT (spec/43_text_codec.md R140 to R146). -/

namespace Sys2Proof.Machine

/-- The hyphen, octet 0x2D (43_text_codec.md R141). -/
def hyphen : Byte := 0x2D#8

/-- The hyphen positions (43_text_codec.md R140). -/
def hyphenPositions : List (Fin 36) := [8, 13, 18, 23]

/-- The 32 digit positions, in order (43_text_codec.md R140). -/
def digitPositions : List (Fin 36) :=
  [0, 1, 2, 3, 4, 5, 6, 7, 9, 10, 11, 12, 14, 15, 16, 17, 19, 20, 21, 22,
   24, 25, 26, 27, 28, 29, 30, 31, 32, 33, 34, 35]

/-- `hexval(c)`: the nibble an octet stands for, either case, or none (43_text_codec.md R141). -/
def hexval (c : Byte) : Option (BitVec 4) :=
  if 0x30#8 ≤ c ∧ c ≤ 0x39#8 then some ((c - 0x30#8).setWidth 4)
  else if 0x41#8 ≤ c ∧ c ≤ 0x46#8 then some ((c - 0x41#8 + 10#8).setWidth 4)
  else if 0x61#8 ≤ c ∧ c ≤ 0x66#8 then some ((c - 0x61#8 + 10#8).setWidth 4)
  else none

/-- `hexchar(x)`: the octet of a nibble, always lowercase (43_text_codec.md R141). -/
def hexchar (x : BitVec 4) : Byte :=
  if x ≤ 9#4 then 0x30#8 + x.setWidth 8 else 0x61#8 + (x.setWidth 8 - 10#8)

/-- The byte two hex digits stand for, high nibble first (43_text_codec.md R142). -/
def hexPair (hi lo : Byte) : Byte := (hexval hi).getD 0#4 ++ (hexval lo).getD 0#4

/-- Does every hyphen position hold a hyphen and every digit position a hex digit
(43_text_codec.md R142)? -/
def textShape (t : Text) : Bool :=
  hyphenPositions.all (fun p => t[p] == hyphen) &&
    digitPositions.all (fun p => (hexval t[p]).isSome)

/-- `b[k] <- hexval(STR[D[2k]]) * 16 + hexval(STR[D[2k+1]])` (43_text_codec.md R140, R142). -/
def textBytes (t : Text) : Identifier :=
  #v[hexPair t[0] t[1], hexPair t[2] t[3], hexPair t[4] t[5], hexPair t[6] t[7],
     hexPair t[9] t[10], hexPair t[11] t[12],
     hexPair t[14] t[15], hexPair t[16] t[17],
     hexPair t[19] t[20], hexPair t[21] t[22],
     hexPair t[24] t[25], hexPair t[26] t[27], hexPair t[28] t[29],
     hexPair t[30] t[31], hexPair t[32] t[33], hexPair t[34] t[35]]

/-- `scan()`: a failure code, or the 16 bytes of the text (43_text_codec.md R142). A wrong length is
found before any octet is examined; a misplaced hyphen is InvalidHex (90_conflicts.md C2, log
entry 7). -/
def scan (strlen : Byte) (t : Text) : Except Code Identifier :=
  if strlen.toNat ≠ Config.textLen then .error .invalidLength
  else if !textShape t then .error .invalidHex
  else .ok (textBytes t)

/-- The octet of the high nibble of a byte. -/
def hexHigh (b : Byte) : Byte := hexchar (b.extractLsb' 4 4)

/-- The octet of the low nibble of a byte. -/
def hexLow (b : Byte) : Byte := hexchar (b.extractLsb' 0 4)

/-- The text of an identifier: lowercase digits, hyphens at 8, 13, 18 and 23 (43_text_codec.md
R146). -/
def formatId (id : Identifier) : Text :=
  #v[hexHigh id[0], hexLow id[0], hexHigh id[1], hexLow id[1],
     hexHigh id[2], hexLow id[2], hexHigh id[3], hexLow id[3],
     hyphen, hexHigh id[4], hexLow id[4], hexHigh id[5], hexLow id[5],
     hyphen, hexHigh id[6], hexLow id[6], hexHigh id[7], hexLow id[7],
     hyphen, hexHigh id[8], hexLow id[8], hexHigh id[9], hexLow id[9],
     hyphen, hexHigh id[10], hexLow id[10], hexHigh id[11], hexLow id[11],
     hexHigh id[12], hexLow id[12], hexHigh id[13], hexLow id[13],
     hexHigh id[14], hexLow id[14], hexHigh id[15], hexLow id[15]]

/-- PARSE: scan, then the check of version and variant (43_text_codec.md R144). -/
def execParse (s : State) : Host.Outcome State Fault Refusal :=
  match scan s.strlen s.str with
  | .error c => .next (s.fail c)
  | .ok r =>
    match checkId r with
    | some c => .next (s.fail c)
    | none => .next { s with id := r }.complete

/-- PARSERAW: scan alone (43_text_codec.md R145). -/
def execParseraw (s : State) : Host.Outcome State Fault Refusal :=
  match scan s.strlen s.str with
  | .error c => .next (s.fail c)
  | .ok r => .next { s with id := r }.complete

/-- FORMAT (43_text_codec.md R146). -/
def execFormat (s : State) : Host.Outcome State Fault Refusal :=
  .next { s with str := formatId s.id, strlen := BitVec.ofNat 8 Config.textLen }.complete

end Sys2Proof.Machine
end

