-- ==== Sys2Proof/Machine/Bus.lean ====
section
/-! DEFINITION. The host transactions LB, LH, LW, LD, SB, SH, SW and SD, and the issue of a command by
`SW 0x3C` (spec/45_control.md R182 to R190, spec/30_encoding.md R85, R86). -/

namespace Sys2Proof.Machine

/-- Perform one command, by its rule. The decoder of command words gives no host transaction
(Sys2Proof.Laws.decodeCommand_isCommand), so the last arms are never reached; a word that stood for
one would be no command, hence illegal. -/
def runCommand (i : Instr) (s : State) : Host.Outcome State Fault Refusal :=
  match i with
  | .nop => execNop s
  | .sipinit => execSipinit s
  | .sipblk => execSipblk s
  | .sipfin n => execSipfin n s
  | .siphash len => execSiphash len s
  | .getver => execGetver s
  | .setver v => execSetver v s
  | .setvar => execSetvar s
  | .validate => execValidate s
  | .newid => execNewid s
  | .parse => execParse s
  | .parseraw => execParseraw s
  | .format => execFormat s
  | .mask => execMask s
  | .encode => execEncode s
  | .decode => execDecode s
  | .lb _ | .lh _ | .lw _ | .ld _ | .sb _ _ | .sh _ _ | .sw _ _ | .sd _ _ =>
    .next (s.fail .illegalCommand)

/-- Issue a command word: an illegal word fails with IllegalCommand, any other is performed, all
within the one transaction (30_encoding.md R85, R86; 20_memory.md R61). -/
def issue (w : BitVec 32) (s : State) : Host.Outcome State Fault Refusal :=
  match decodeCommand w with
  | .error _ => .next (s.fail .illegalCommand)
  | .ok i => runCommand i s

/-- A read of `n` bytes: a bus error when misaligned, else RDATA (45_control.md R183 to R186). -/
def readWindow (off : Byte) (n : Nat) (s : State) : Host.Outcome State Fault Refusal :=
  if aligned off n then .next (s.respond (memRead s off.toNat n)) else .fault .busError

/-- A write of `n` bytes that issues nothing: a bus error when misaligned, else the window bytes
(45_control.md R187 to R190). -/
def writeWindow (off : Byte) (n : Nat) (v : Word64) (s : State) :
    Host.Outcome State Fault Refusal :=
  if aligned off n then .next (memWrite s off.toNat v n) else .fault .busError

/-- LB off (45_control.md R183). -/
def execLb (off : Byte) (s : State) : Host.Outcome State Fault Refusal := readWindow off 1 s

/-- LH off (45_control.md R184). -/
def execLh (off : Byte) (s : State) : Host.Outcome State Fault Refusal := readWindow off 2 s

/-- LW off (45_control.md R185). -/
def execLw (off : Byte) (s : State) : Host.Outcome State Fault Refusal := readWindow off 4 s

/-- LD off (45_control.md R186). -/
def execLd (off : Byte) (s : State) : Host.Outcome State Fault Refusal := readWindow off 8 s

/-- SB off, v (45_control.md R187). -/
def execSb (off : Byte) (v : BitVec 8) (s : State) : Host.Outcome State Fault Refusal :=
  writeWindow off 1 (v.setWidth 64) s

/-- SH off, v (45_control.md R188). -/
def execSh (off : Byte) (v : BitVec 16) (s : State) : Host.Outcome State Fault Refusal :=
  writeWindow off 2 (v.setWidth 64) s

/-- SW off, v: at 0x3C it issues the command word `v` (45_control.md R189). -/
def execSw (off : Byte) (v : BitVec 32) (s : State) : Host.Outcome State Fault Refusal :=
  if off = cmdOffset then issue v s else writeWindow off 4 (v.setWidth 64) s

/-- SD off, v (45_control.md R190). -/
def execSd (off : Byte) (v : BitVec 64) (s : State) : Host.Outcome State Fault Refusal :=
  writeWindow off 8 v s

end Sys2Proof.Machine
end

