-- ==== Sys2Proof/Machine/Dispatch.lean ====
section
/-! DEFINITION. One arm per instruction: each calls its own meaning. -/

namespace Sys2Proof.Machine

def exec (i : Instr) (s : State) : Host.Outcome State Fault Refusal :=
  match i with
  -- commands
  | .nop => Sys2Proof.Machine.execNop s
  | .sipinit => Sys2Proof.Machine.execSipinit s
  | .sipblk => Sys2Proof.Machine.execSipblk s
  | .sipfin n => Sys2Proof.Machine.execSipfin n s
  | .siphash len => Sys2Proof.Machine.execSiphash len s
  | .getver => Sys2Proof.Machine.execGetver s
  | .setver v => Sys2Proof.Machine.execSetver v s
  | .setvar => Sys2Proof.Machine.execSetvar s
  | .validate => Sys2Proof.Machine.execValidate s
  | .newid => Sys2Proof.Machine.execNewid s
  | .parse => Sys2Proof.Machine.execParse s
  | .parseraw => Sys2Proof.Machine.execParseraw s
  | .format => Sys2Proof.Machine.execFormat s
  | .mask => Sys2Proof.Machine.execMask s
  | .encode => Sys2Proof.Machine.execEncode s
  | .decode => Sys2Proof.Machine.execDecode s
  -- host transactions
  | .lb off => Sys2Proof.Machine.execLb off s
  | .lh off => Sys2Proof.Machine.execLh off s
  | .lw off => Sys2Proof.Machine.execLw off s
  | .ld off => Sys2Proof.Machine.execLd off s
  | .sb off v => Sys2Proof.Machine.execSb off v s
  | .sh off v => Sys2Proof.Machine.execSh off v s
  | .sw off v => Sys2Proof.Machine.execSw off v s
  | .sd off v => Sys2Proof.Machine.execSd off v s

end Sys2Proof.Machine
end

