-- ==== Sys2Proof/Machine/Inputs.lean ====
section
/-! DEFINITION. What the block does next: the order in which host accesses and levels of the reset
input take effect (spec/20_memory.md R65, spec/60_exceptions.md R215,
spec/70_reset_and_hazards.md R230), and the placing of a host access. Log entries 1, 3 and 4. -/

namespace Sys2Proof.Machine

/-- What the next step performs, with the inputs left after it. -/
inductive Action where
  /-- No input: the block is idle and holds every register (60_exceptions.md R215). -/
  | idle
  /-- A host access is performed. -/
  | access (r : Request) (rest : List Input)
  /-- The reset input takes a new level. -/
  | resetLine (asserted : Bool) (rest : List Input)
  /-- A host access waits in reset and nothing to come releases it (93 S10). -/
  | held
deriving DecidableEq, Repr

/-- The first level of the reset input among the inputs, and the inputs without it: while reset is
asserted the accesses before it wait (70_reset_and_hazards.md R230). -/
def takeReset : List Input → Option (Bool × List Input)
  | [] => none
  | .resetLine asserted :: rest => some (asserted, rest)
  | .access r :: rest =>
    match takeReset rest with
    | some (asserted, others) => some (asserted, .access r :: others)
    | none => none

/-- The next action. Inputs take effect in order; while reset is asserted no access is performed, so
the next level of the reset input passes the accesses that wait (70_reset_and_hazards.md R230). -/
def State.nextAction (s : State) : Action :=
  match s.inputs with
  | [] => .idle
  | .resetLine asserted :: rest => .resetLine asserted rest
  | .access r :: rest =>
    if s.inReset then
      match takeReset s.inputs with
      | some (asserted, others) => .resetLine asserted others
      | none => .held
    else .access r rest

/-- The state with its remaining inputs replaced. -/
def State.withInputs (rest : List Input) (s : State) : State := { s with inputs := rest }

/-- The state with a host access placed as the very next input and reset released. -/
def State.placeRequest (r : Request) (s : State) : State :=
  { s with inReset := false, inputs := .access r :: s.inputs }

/-- The request that has the word of an opcode-table row performed: the header with WDATA zero, or
the transaction that issues the command word (30_encoding.md R85). Log entry 8. -/
def requestOfTable (nbits w : Nat) : Request :=
  if nbits ≤ 16 then ⟨BitVec.ofNat 11 w, 0#64⟩ else issueRequest (BitVec.ofNat 32 w)

end Sys2Proof.Machine
end

