-- ==== Sys2Proof/Machine/Step.lean ====
section
/-! DEFINITION. One step: the next host access or the next level of the reset input
(spec/60_exceptions.md R216), and the placing of a word of the opcode table as the next access. -/

namespace Sys2Proof.Machine

/-- One step of the machine. A host access is taken off the inputs, decoded and performed. -/
def step (s : State) : Host.Outcome State Fault Refusal :=
  match s.nextAction with
  | .idle => .next s
  | .resetLine asserted rest => .next ((s.withInputs rest).driveReset asserted)
  | .held => .fault .heldInReset
  | .access r rest => exec (decodeRequest r) (s.withInputs rest)

/-- The state with a word of spec/opcode_table.json placed as the next host access. -/
def State.withFetchWord (s : State) (nbits w : Nat) : State :=
  s.placeRequest (requestOfTable nbits w)

end Sys2Proof.Machine
end

