-- ==== Sys2Proof/Machine/Assembly.lean ====
section
/-! DEFINITION. The assembler's instructions and pseudo-instructions, as the host transactions they
stand for (spec/30_encoding.md R91, R92). -/

namespace Sys2Proof.Machine

/-- The accesses a list of instructions stands for, in order; a command is the transaction that issues
its word (30_encoding.md R91). -/
def accessesOf (is : List Instr) : List Input := is.map (fun i => .access (requestOf i))

/-- The decimal numeral of a bit vector. -/
def numeral {n : Nat} (v : BitVec n) : String := toString v.toNat

/-- The text of one line of a host program: the mnemonic and its operands, decimal
(30_encoding.md R91). -/
def asmLine (i : Instr) : String :=
  match i with
  | .sipfin n => "SIPFIN " ++ toString n
  | .siphash len => "SIPHASH " ++ toString len
  | .setver v => "SETVER " ++ numeral v
  | .lb off | .lh off | .lw off | .ld off => i.row.mnemonic ++ " " ++ numeral off
  | .sb off v => "SB " ++ numeral off ++ ", " ++ numeral v
  | .sh off v => "SH " ++ numeral off ++ ", " ++ numeral v
  | .sw off v => "SW " ++ numeral off ++ ", " ++ numeral v
  | .sd off v => "SD " ++ numeral off ++ ", " ++ numeral v
  | .nop | .sipinit | .sipblk | .getver | .setvar | .validate | .newid | .parse | .parseraw
  | .format | .mask | .encode | .decode => i.row.mnemonic

/-- One byte write per element, at rising offsets from `base`. -/
def writeBytes (base : Nat) : List Byte → List Instr
  | [] => []
  | b :: bs => .sb (BitVec.ofNat 8 base) b :: writeBytes (base + 1) bs

/-- LDKEY k0, k1 (30_encoding.md R92). -/
def ldkey (k0 k1 : Word64) : List Instr := [.sd 0x10#8 k0, .sd 0x18#8 k1]

/-- LDID b0..b15 (30_encoding.md R92). -/
def ldid (b : Identifier) : List Instr :=
  [.sd 0x00#8 (le64 (b.toList.take 8)), .sd 0x08#8 (le64 (b.toList.drop 8))]

/-- FROMBYTES b0..b15 (30_encoding.md R92). -/
def frombytes (b : Identifier) : List Instr := ldid b ++ [.validate]

/-- RDID (30_encoding.md R92). -/
def rdid : List Instr := [.ld 0x00#8, .ld 0x08#8]

/-- LDSTR s: at most 36 octets, then the length modulo 256 (30_encoding.md R92). -/
def ldstr (s : List Byte) : List Instr :=
  writeBytes 0x40 (s.take 36) ++ [.sb 0x39#8 (BitVec.ofNat 8 s.length)]

/-- RDSTR (30_encoding.md R92). -/
def rdstr : List Instr := (List.range 36).map (fun i => .lb (BitVec.ofNat 8 (0x40 + i)))

/-- SETV4 (30_encoding.md R92). -/
def setv4 : List Instr := [.setver 4#4]

/-- SETV7 (30_encoding.md R92). -/
def setv7 : List Instr := [.setver 7#4]

/-- CLRERR (30_encoding.md R92). -/
def clrerr : List Instr := [.sb 0x38#8 0x80#8]

/-- HASH s, for at most 32 bytes (30_encoding.md R92). -/
def hash (s : List Byte) : List Instr := writeBytes 0x80 s ++ [.siphash s.length]

/-- The streaming hash of a message: SIPINIT, then each full block through DIN and SIPBLK, then the
tail through DIN and SIPFIN (41_keyed_hash.md R107). -/
def streamHash (m : List Byte) : List Instr :=
  [.sipinit] ++
    (List.range (m.length / 8)).flatMap
      (fun i => [.sd 0x20#8 (le64 ((m.drop (8 * i)).take 8)), .sipblk]) ++
    [.sd 0x20#8 (le64 (m.drop (8 * (m.length / 8)))), .sipfin (m.length % 8)]

end Sys2Proof.Machine
end

