-- ==== Sys2Proof/Safety.lean ====
section
/-! DEFINITION. What counts as a legal state and as a safe run, in the terms the claims use
(spec/93_implementation_defined.md S5, S6, S9, S10; spec/60_exceptions.md R216). -/

namespace Sys2Proof.Machine

/-- STATUS holds a value the block can produce: its reserved bits are zero and CODE is a result code
(10_state.md R32, R33; 93 S5, S6). -/
abbrev State.StatusLegal (s : State) : Prop :=
  s.status &&& 0x70#8 = 0#8 ∧ s.code.toNat ≤ 6

/-- RES holds no more than a mask: its writers give a nibble or 48 bits (10_state.md R25,
44_facade.md R162). -/
abbrev State.ResShort (s : State) : Prop := s.res.toNat < 2 ^ 48

/-- The invariant of the machine. -/
abbrev State.Inv (s : State) : Prop := s.StatusLegal ∧ s.ResShort

/-- The bytes a host transaction moves, none for a command (30_encoding.md R82, R87). -/
def accessOf : Instr → Option (Byte × Nat)
  | .lb off | .sb off _ => some (off, 1)
  | .lh off | .sh off _ => some (off, 2)
  | .lw off | .sw off _ => some (off, 4)
  | .ld off | .sd off _ => some (off, 8)
  | .nop | .sipinit | .sipblk | .sipfin _ | .siphash _ | .getver | .setver _ | .setvar
  | .validate | .newid | .parse | .parseraw | .format | .mask | .encode | .decode => none

/-- The instruction is a misaligned host transaction (45_control.md R182). -/
def misaligned (i : Instr) : Bool :=
  match accessOf i with
  | some (off, n) => decide (off.toNat % n ≠ 0)
  | none => false

/-- The two states hold the same registers; the reset input and the host's side of the bus may
differ. -/
abbrev SameRegisters (s t : State) : Prop :=
  t = { s with inReset := t.inReset, inputs := t.inputs, rdata := t.rdata }

/-- The input is a host access. -/
def Input.isAccess : Input → Bool
  | .access _ => true
  | .resetLine _ => false

/-- No input is a misaligned host access (93 S9). -/
abbrev AllAligned (is : List Input) : Prop :=
  ∀ r, Input.access r ∈ is → misaligned (decodeRequest r) = false

/-- The level of the reset input once every input has taken effect. -/
def finalLevel : Bool → List Input → Bool
  | level, [] => level
  | level, .access _ :: rest => finalLevel level rest
  | _, .resetLine asserted :: rest => finalLevel asserted rest

/-- The inputs hold no bus error and leave no access waiting in reset for ever (93 S9, S10). -/
abbrev State.Safe (s : State) : Prop :=
  AllAligned s.inputs ∧ finalLevel s.inReset s.inputs = false

end Sys2Proof.Machine
end

