-- ==== Sys2Proof/Certificates/Slice0/Obligations.lean ====
section
/-! DEFINITION. The statements for the provers, from the numbered rules of spec/. The vocabulary they
share stands first; it is written from the spec's words, in Nat arithmetic and byte indices, so that a
statement does not repeat the model's own definition. -/

namespace Sys2Proof.Claims

open Sys2Proof.Machine

/-- STATUS after a command that completes: CODE is 0, bits 7:4 are as before (60_exceptions.md
R202). -/
def Completed (s t : State) : Prop :=
  t.code = 0#4 ∧ t.status.extractLsb' 4 4 = s.status.extractLsb' 4 4

/-- The state after a command that fails: only STATUS differs, CODE is `c`, ERR is 1, the reserved
bits are as before (60_exceptions.md R203). -/
def FailedWith (c : Nat) (s t : State) : Prop :=
  t = { s with status := t.status } ∧ t.code.toNat = c ∧ t.err = true ∧
    t.status.extractLsb' 4 3 = s.status.extractLsb' 4 3

/-- The version nibble as a number (42_bitfield.md R120). -/
def versionNibble (id : Identifier) : Nat := id[6].toNat / 16

/-- The variant bits as a number (42_bitfield.md R120). -/
def variantBits (id : Identifier) : Nat := id[8].toNat / 64

/-- Version 4 or 7 and variant `10` (42_bitfield.md R124). -/
def ValidId (id : Identifier) : Prop :=
  (versionNibble id = 4 ∨ versionNibble id = 7) ∧ variantBits id = 2

/-- The digit positions D of 43_text_codec.md R140. -/
def D : Vector (Fin 36) 32 :=
  #v[0, 1, 2, 3, 4, 5, 6, 7, 9, 10, 11, 12, 14, 15, 16, 17, 19, 20, 21, 22,
     24, 25, 26, 27, 28, 29, 30, 31, 32, 33, 34, 35]

/-- The octet is a hex digit of value `v`, in either case (43_text_codec.md R141). -/
def HexDigit (c : Byte) (v : Nat) : Prop :=
  (0x30 ≤ c.toNat ∧ c.toNat ≤ 0x39 ∧ v = c.toNat - 0x30) ∨
  (0x41 ≤ c.toNat ∧ c.toNat ≤ 0x46 ∧ v = c.toNat - 0x41 + 10) ∨
  (0x61 ≤ c.toNat ∧ c.toNat ≤ 0x66 ∧ v = c.toNat - 0x61 + 10)

/-- The octet is the lowercase hex digit of value `v` (43_text_codec.md R141, hexchar). -/
def LowerDigit (c : Byte) (v : Nat) : Prop :=
  (v ≤ 9 ∧ c.toNat = 0x30 + v) ∨ (10 ≤ v ∧ v ≤ 15 ∧ c.toNat = 0x61 + (v - 10))

/-- The four hyphen positions hold hyphens (43_text_codec.md R140). -/
def Hyphenated (t : Text) : Prop :=
  t[8] = 0x2D#8 ∧ t[13] = 0x2D#8 ∧ t[18] = 0x2D#8 ∧ t[23] = 0x2D#8

/-- The scan of STR succeeds with the bytes `b` (43_text_codec.md R142). -/
def Parsed (s : State) (b : Identifier) : Prop :=
  s.strlen.toNat = 36 ∧ Hyphenated s.str ∧
  ∀ k : Fin 16, ∃ hi lo, HexDigit s.str[D[2 * k.val]] hi ∧ HexDigit s.str[D[2 * k.val + 1]] lo ∧
    b[k].toNat = 16 * hi + lo

/-- The text is the lowercase canonical form of the identifier (43_text_codec.md R146). -/
def TextOf (t : Text) (id : Identifier) : Prop :=
  Hyphenated t ∧
  ∀ k : Fin 16, LowerDigit t[D[2 * k.val]] (id[k].toNat / 16) ∧
    LowerDigit t[D[2 * k.val + 1]] (id[k].toNat % 16)

/-- The invariant message M of an identifier (44_facade.md R160). -/
def messageM (id : Identifier) : List Byte :=
  [BitVec.ofNat 8 (id[6].toNat % 16), id[7], BitVec.ofNat 8 (id[8].toNat % 64),
   id[9], id[10], id[11], id[12], id[13], id[14], id[15]]

/-- The 74 payload bits of two identifiers agree (10_state.md R21, rand_a and rand_b). -/
def SamePayload (a b : Identifier) : Prop :=
  a[6].toNat % 16 = b[6].toNat % 16 ∧ a[7] = b[7] ∧ a[8].toNat % 64 = b[8].toNat % 64 ∧
  ∀ j (h : j < 16), 9 ≤ j → a[j] = b[j]

/-- What `computeMask()` leaves, DIGEST being the digest of M (44_facade.md R161). -/
def MaskComputed (s t : State) : Prop :=
  t.digest = siphash24 (messageM s.id) s.key0 s.key1 ∧
  t.lanes = hashLanes (messageM s.id) s.key0 s.key1 ∧ t.slen = 10#8

/-- What ENCODE (`v = 4`) and DECODE (`v = 7`) leave: the timestamp bytes XORed with the low 48 bits
of the digest, big-endian, the markers set, the payload kept, and nothing else but the hash registers
and STATUS changed (44_facade.md R163, R164). -/
def Transformed (v : Nat) (s t : State) : Prop :=
  Completed s t ∧
  t = { s with id := t.id, lanes := t.lanes, slen := t.slen, digest := t.digest,
               status := t.status } ∧
  MaskComputed s t ∧
  (∀ j (h : j < 6), t.id[j] = s.id[j] ^^^ t.digest.extractLsb' (40 - 8 * j) 8) ∧
  versionNibble t.id = v ∧ variantBits t.id = 2 ∧ SamePayload t.id s.id

/-- The byte held at a window offset: as a read sees it, but the key bytes as they are stored
(20_memory.md R51). -/
def storedByte (s : State) (a : Nat) : Byte :=
  if 0x10 ≤ a ∧ a < 0x18 then s.key0.extractLsb' (8 * (a - 0x10)) 8
  else if 0x18 ≤ a ∧ a < 0x20 then s.key1.extractLsb' (8 * (a - 0x18)) 8
  else rbyte s a

/-- The offsets of the bytes a host write stores: ID, KEY0, KEY1, DIN, STRLEN, STR, MSG
(20_memory.md R51). -/
def Writable (a : Nat) : Prop :=
  a < 0x28 ∨ a = 0x39 ∨ (0x40 ≤ a ∧ a < 0x64) ∨ (0x80 ≤ a ∧ a < 0xA0)

/-- The byte `new` held at offset `a` after a write of `x` where `old` was held: `x` at a writable
byte, ERR cleared by a 1 at STATUS, else no change (20_memory.md R57). -/
def WrittenByte (a : Nat) (x old new : Byte) : Prop :=
  (Writable a → new = x) ∧
  (a = 0x38 → new = if x.getLsbD 7 then old &&& 0x7F#8 else old) ∧
  (¬ Writable a → a ≠ 0x38 → new = old)

/-- What a write of the low `n` bytes of `v` at `off` leaves: those window bytes written, each by
itself, every other byte as before; no hidden or read-only register, and of STATUS no bit but ERR,
changed (20_memory.md R57, R58). -/
def Stored (off : Byte) (n : Nat) (v : Word64) (s t : State) : Prop :=
  t = { s with id := t.id, key0 := t.key0, key1 := t.key1, din := t.din, status := t.status,
               strlen := t.strlen, str := t.str, msg := t.msg } ∧
  t.status &&& 0x7F#8 = s.status &&& 0x7F#8 ∧
  (∀ a, a < 256 → off.toNat ≤ a → a < off.toNat + n →
    WrittenByte a (v.extractLsb' (8 * (a - off.toNat)) 8) (storedByte s a) (storedByte t a)) ∧
  (∀ a, a < 256 → (a < off.toNat ∨ off.toNat + n ≤ a) → storedByte t a = storedByte s a)

/-- The little-endian value of the `n` window bytes from offset `a` (20_memory.md R52). -/
def windowValue (s : State) (a : Nat) : Nat → Nat
  | 0 => 0
  | n + 1 => windowValue s a n + (rbyte s (a + n)).toNat * 2 ^ (8 * n)

/-- A write that clears ERR: a store at 0x38 whose bit 7 is 1 (10_state.md R34). -/
def clearsErr : Instr → Bool
  | .sb off v => off == 0x38#8 && v.getLsbD 7
  | .sh off v => off == 0x38#8 && v.getLsbD 7
  | .sw off v => off == 0x38#8 && v.getLsbD 7
  | .sd off v => off == 0x38#8 && v.getLsbD 7
  | _ => false

/-- The commands that write ID (10_state.md section 1). -/
def writesId : Instr → Bool
  | .setver _ | .setvar | .newid | .parse | .parseraw | .encode | .decode => true
  | _ => false

/-- The commands that write DIGEST (10_state.md section 1). -/
def writesDigest : Instr → Bool
  | .sipfin _ | .siphash _ | .mask | .encode | .decode => true
  | _ => false

/-- The commands that write SLEN and the lanes (10_state.md section 1). -/
def writesLanes : Instr → Bool
  | .sipinit | .sipblk => true
  | i => writesDigest i

/-- The commands that write RES (10_state.md section 1). -/
def writesRes : Instr → Bool
  | .getver | .mask => true
  | _ => false

/-- The command that writes STR and STRLEN (10_state.md section 1). -/
def writesText : Instr → Bool
  | .format => true
  | _ => false

/-- The window offsets of the registers a command may write, STATUS among them (10_state.md
section 1, 20_memory.md R51). -/
def mayWriteOffset (i : Instr) (a : Nat) : Bool :=
  a == 0x38 || (writesId i && a < 0x10) || (writesDigest i && 0x28 ≤ a && a < 0x30) ||
  (writesRes i && 0x30 ≤ a && a < 0x38) || (writesLanes i && a == 0x3A) ||
  (writesText i && (a == 0x39 || (0x40 ≤ a && a < 0x64)))

/-- The codes a command can fail with once decoded (60_exceptions.md R201). -/
def failureCodes : Instr → List Nat
  | .validate => [3, 4]
  | .parse => [1, 2, 3, 4]
  | .parseraw => [1, 2]
  | .siphash _ => [6]
  | _ => []

/-- The word is illegal, by the three clauses of 30_encoding.md R86. -/
def IllegalWord (w : BitVec 32) : Prop :=
  w.toNat / 2 ^ 16 ≠ 0 ∨
  w.toNat % 256 ∉ [0x00, 0x10, 0x11, 0x12, 0x13, 0x20, 0x21, 0x22, 0x23, 0x24, 0x30, 0x31, 0x32,
    0x40, 0x41, 0x42] ∨
  (w.toNat % 256 = 0x12 ∧ w.toNat / 2 ^ 11 % 2 ^ 5 ≠ 0) ∨
  (w.toNat % 256 = 0x21 ∧ w.toNat / 2 ^ 12 % 2 ^ 4 ≠ 0) ∨
  (w.toNat % 256 ∉ [0x12, 0x13, 0x21] ∧ w.toNat / 2 ^ 8 % 2 ^ 8 ≠ 0)

/-- The 16 rows of commands in the opcode map (30_encoding.md R87). -/
def commandRows : List OpcodeRow :=
  [Instr.nop.row, Instr.sipinit.row, Instr.sipblk.row, (Instr.sipfin 0).row, (Instr.siphash 0).row,
   Instr.getver.row, (Instr.setver 0#4).row, Instr.setvar.row, Instr.validate.row, Instr.newid.row,
   Instr.parse.row, Instr.parseraw.row, Instr.format.row, Instr.mask.row, Instr.encode.row,
   Instr.decode.row]

/-- Every register holds its value of 10_state.md R41. -/
def AllRegistersZero (s : State) : Prop :=
  (∀ j (h : j < 16), s.id[j] = 0x00#8) ∧ s.key0 = 0#64 ∧ s.key1 = 0#64 ∧ s.din = 0#64 ∧
  s.digest = 0#64 ∧ s.res = 0#64 ∧ s.lanes = ⟨0#64, 0#64, 0#64, 0#64⟩ ∧ s.slen = 0#8 ∧
  s.status = 0x00#8 ∧ s.strlen = 0#8 ∧ (∀ j (h : j < 36), s.str[j] = 0x00#8) ∧
  (∀ j (h : j < 32), s.msg[j] = 0x00#8)

/-- Two states that differ at most in the key and the lanes, the registers a host cannot read
(60_exceptions.md R210). -/
def SameButSecrets (s t : State) : Prop :=
  t = { s with key0 := t.key0, key1 := t.key1, lanes := t.lanes }

/-- The instruction makes a digest of the secrets readable: one of the commands that write DIGEST, or
the write that issues one. -/
def revealsDigest : Instr → Bool
  | .sw off w => off == 0x3C#8 && ((decodeCommand w).toOption.any writesDigest)
  | i => writesDigest i

end Sys2Proof.Claims

open Sys2Proof Sys2Proof.Machine Sys2Proof.Claims

/-! Reset, inputs and the step. -/

/-- 10_state.md R41: the value of every register after reset, and what VALIDATE reports of it. -/
def Obligations.ResetLeavesEveryRegisterZero : Prop :=
  AllRegistersZero State.reset ∧ ∃ t, exec .validate State.reset = .next t ∧ t.code = 3#4

/-- 70_reset_and_hazards.md R230: asserting reset gives every register its reset value in one step;
while reset is asserted no host access is performed, answered or dropped: the step is stuck, or only
the reset input moves. -/
def Obligations.ResetInputClearsRegistersAndHoldsAccesses : Prop :=
  (∀ s rest, s.inputs = .resetLine true :: rest →
    ∃ t, step s = .next t ∧ AllRegistersZero t ∧ t.inReset = true) ∧
  (∀ s, s.inReset = true →
    step s = .fault .heldInReset ∨
    ∃ t, step s = .next t ∧ (SameRegisters s t ∨ AllRegistersZero t) ∧
      t.inputs.filter Input.isAccess = s.inputs.filter Input.isAccess ∧ t.rdata = s.rdata)

/-- The order in which this model lets a waiting access and the reset input take effect (log entry 3,
the model's reading of 70_reset_and_hazards.md R230): the release passes the accesses that wait, the
accesses stay in order, and where none is to come the machine is stuck. -/
def Obligations.HeldAccessesWaitForRelease : Prop :=
  (∀ s r pre post, s.inReset = true → (∀ i ∈ pre, Input.isAccess i = true) →
    s.inputs = .access r :: pre ++ .resetLine false :: post →
    step s = .next { s with inReset := false, inputs := .access r :: pre ++ post }) ∧
  (∀ s r pre, s.inReset = true → (∀ i ∈ pre, Input.isAccess i = true) →
    s.inputs = .access r :: pre → step s = .fault .heldInReset)

/-- A step out of reset performs the instruction its next access decodes to, on the state without that
access; with no input it holds every register (60_exceptions.md R215, R216; log entries 1 and 4). -/
def Obligations.StepPerformsTheDecodedAccess : Prop :=
  (∀ s r rest, s.inReset = false → s.inputs = .access r :: rest →
    step s = exec (decodeRequest r) { s with inputs := rest }) ∧
  (∀ s, s.inputs = [] → step s = .next s)

/-- Every encodable instruction, host transaction or command, runs when the host places the request
of it: the step is the instruction's own meaning; so does a word of the opcode table, placed by
withFetchWord (log entry 8). -/
def Obligations.StepRunsEveryEncodedInstruction : Prop :=
  (∀ i s rest, i.wellFormed = true → s.inReset = false → s.inputs = .access (requestOf i) :: rest →
    step s = exec i { s with inputs := rest }) ∧
  (∀ nbits w i (s : State), decodeTableWord nbits w = some i →
    step (s.withFetchWord nbits w) = exec i { s with inReset := false })

/-- 30_encoding.md R85: `SW 0x3C, w` performs the command `w` stands for, or fails with
IllegalCommand, within the one transaction; no other transaction issues a command: it reads, or stores
its bytes and nothing else. -/
def Obligations.OnlyAWordWriteToCmdIssues : Prop :=
  (∀ s r rest, s.inReset = false → s.inputs = .access r :: rest → r.header = 0x63C#11 →
    (∀ i, decodeCommand (r.wdata.extractLsb' 0 32) = .ok i →
      step s = exec i { s with inputs := rest }) ∧
    (∀ e, decodeCommand (r.wdata.extractLsb' 0 32) = .error e →
      ∃ t, step s = .next t ∧ FailedWith 5 { s with inputs := rest } t)) ∧
  (∀ s r rest t, s.inReset = false → s.inputs = .access r :: rest → r.header ≠ 0x63C#11 →
    step s = .next t →
    if r.header.getLsbD 10 = true then
      Stored (r.header.extractLsb' 0 8) (2 ^ (r.header.toNat / 2 ^ 8 % 4)) r.wdata
        { s with inputs := rest } t
    else t = { s with inputs := rest, rdata := t.rdata })

/-! Encoding. -/

/-- Decoding the encoding of any encodable instruction gives it back, with every operand at every
value its field admits (30_encoding.md R81, R82, R87). -/
def Obligations.DecodeOfEncodeIsIdentity : Prop :=
  ∀ i : Instr, i.wellFormed = true → decode (encode i) = .ok i

/-- What the decoder gives is encodable and encodes back to the same word; for a request, to the same
header (the unused bits of WDATA are ignored, 30_encoding.md R84). -/
def Obligations.EncodeOfDecodeIsIdentity : Prop :=
  (∀ w i, decodeCommand w = .ok i →
    i.wellFormed = true ∧ i.isCommand = true ∧ encode i = .command w) ∧
  (∀ r, (decodeRequest r).isCommand = false ∧
    ∃ d, encode (decodeRequest r) = .bus ⟨r.header, d⟩)

/-- 30_encoding.md R86: an illegal word is decoded to no command and changes nothing but STATUS; any
other word is the command whose row of the opcode map matches, and exactly that row matches. -/
def Obligations.WordsAreOneCommandOrIllegal : Prop :=
  (∀ w, IllegalWord w → (∃ e, decodeCommand w = .error e) ∧
    ∀ s, ∃ t, exec (.sw 0x3C#8 w) s = .next t ∧ FailedWith 5 s t) ∧
  (∀ w, ¬ IllegalWord w → ∃ i, decodeCommand w = .ok i ∧ i.row ∈ commandRows ∧
    ∀ row ∈ commandRows, w.toNat &&& row.mask = row.pattern ↔ row = i.row)

/-- Words written out from the encodings of 30_encoding.md R81, R82, R87 and R91 decode to the
instructions they stand for. -/
def Obligations.SampleWordsDecodeAsTheSpecSays : Prop :=
  decodeCommand 0x00000000#32 = .ok .nop ∧
  decodeCommand 0x00000712#32 = .ok (.sipfin 7) ∧
  decodeCommand 0x00000f21#32 = .ok (.setver 15#4) ∧
  decodeCommand 0x00002013#32 = .ok (.siphash 32) ∧
  decodeCommand 0x00000031#32 = .ok .parseraw ∧
  decodeCommand 0x00000041#32 = .ok .encode ∧
  decodeRequest ⟨0x33A#11, 0#64⟩ = .ld 0x3A#8 ∧
  decodeRequest ⟨0x63C#11, 0x24#64⟩ = .sw 0x3C#8 0x24#32

/-! Host transactions. -/

/-- 20_memory.md R55: accesses are 1, 2, 4 or 8 bytes wide, aligned when `off mod n = 0`, and only
aligned accesses are performed. An instruction stops only by the bus error of a misaligned access;
every other one gives a next state, and none is refused. -/
def Obligations.OnlyMisalignedAccessesStop : Prop :=
  ∀ i s, if misaligned i then exec i s = .fault .busError else ∃ t, exec i s = .next t

/-- 45_control.md R183 to R186: LB, LH, LW and LD answer the little-endian value of their window bytes,
zero-extended, or are a bus error; they write nothing; their headers. A read of CMD returns 0 and issues nothing; the
key reads 0; LD 0x38 returns STATUS, STRLEN and SLEN. -/
def Obligations.LoadsAnswerTheWindowBytes : Prop :=
  (∀ off d, decodeRequest ⟨0b000#3 ++ off, d⟩ = .lb off ∧
    decodeRequest ⟨0b001#3 ++ off, d⟩ = .lh off ∧ decodeRequest ⟨0b010#3 ++ off, d⟩ = .lw off ∧
    decodeRequest ⟨0b011#3 ++ off, d⟩ = .ld off) ∧
  (∀ s off, ∃ v, exec (.lb off) s = .next { s with rdata := some v } ∧
    v.toNat = (rbyte s off.toNat).toNat) ∧
  (∀ s off, if off.toNat % 2 ≠ 0 then exec (.lh off) s = .fault .busError
    else ∃ v, exec (.lh off) s = .next { s with rdata := some v } ∧
      v.toNat = windowValue s off.toNat 2) ∧
  (∀ s off, if off.toNat % 4 ≠ 0 then exec (.lw off) s = .fault .busError
    else ∃ v, exec (.lw off) s = .next { s with rdata := some v } ∧
      v.toNat = windowValue s off.toNat 4) ∧
  (∀ s off, if off.toNat % 8 ≠ 0 then exec (.ld off) s = .fault .busError
    else ∃ v, exec (.ld off) s = .next { s with rdata := some v } ∧
      v.toNat = windowValue s off.toNat 8) ∧
  (∀ s, exec (.lw 0x3C#8) s = .next { s with rdata := some 0#64 }) ∧
  (∀ s, exec (.ld 0x10#8) s = .next { s with rdata := some 0#64 } ∧
    exec (.ld 0x18#8) s = .next { s with rdata := some 0#64 }) ∧
  (∀ s, ∃ v, exec (.ld 0x38#8) s = .next { s with rdata := some v } ∧
    v.toNat = (if s.err then 128 else 0) + s.code.toNat + s.strlen.toNat * 2 ^ 8 +
      s.slen.toNat * 2 ^ 16)

/-- 20_memory.md R51, the readable bytes of the window, register by register. -/
def Obligations.WindowShowsEachRegisterAtItsOffsets : Prop :=
  ∀ s, (∀ j (h : j < 16), rbyte s (0x00 + j) = s.id[j]) ∧
    (∀ j, j < 16 → rbyte s (0x10 + j) = 0#8) ∧
    (∀ j, j < 8 → (rbyte s (0x20 + j)).toNat = s.din.toNat / 2 ^ (8 * j) % 256) ∧
    (∀ j, j < 8 → (rbyte s (0x28 + j)).toNat = s.digest.toNat / 2 ^ (8 * j) % 256) ∧
    (∀ j, j < 8 → (rbyte s (0x30 + j)).toNat = s.res.toNat / 2 ^ (8 * j) % 256) ∧
    (rbyte s 0x38).toNat = (if s.err then 128 else 0) + s.code.toNat ∧
    rbyte s 0x39 = s.strlen ∧ rbyte s 0x3A = s.slen ∧
    (∀ j, 0x3B ≤ j → j < 0x40 → rbyte s j = 0#8) ∧
    (∀ j (h : j < 36), rbyte s (0x40 + j) = s.str[j]) ∧
    (∀ j, 0x64 ≤ j → j < 0x80 → rbyte s j = 0#8) ∧
    (∀ j (h : j < 32), rbyte s (0x80 + j) = s.msg[j]) ∧
    (∀ j, 0xA0 ≤ j → rbyte s j = 0#8)

/-- 20_memory.md R57: reserved bytes read 0 and ignore writes, read-only bytes ignore writes,
write-only bytes read 0, a write to STATUS changes at most ERR; none of these is an error. -/
def Obligations.ReservedReadOnlyAndWriteOnlyBytes : Prop :=
  (∀ s (off x : Byte), off = 0x3B#8 ∨ (0x64#8 ≤ off ∧ off ≤ 0x7F#8) ∨ 0xA0#8 ≤ off →
    exec (.lb off) s = .next { s with rdata := some 0#64 } ∧ exec (.sb off x) s = .next s) ∧
  (∀ s (off x : Byte), (0x28#8 ≤ off ∧ off ≤ 0x37#8) ∨ off = 0x3A#8 →
    exec (.sb off x) s = .next s) ∧
  (∀ s (off : Byte), (0x10#8 ≤ off ∧ off ≤ 0x1F#8) ∨ (0x3C#8 ≤ off ∧ off ≤ 0x3F#8) →
    exec (.lb off) s = .next { s with rdata := some 0#64 }) ∧
  (∀ s (x : Byte), ∃ t, exec (.sb 0x38#8 x) s = .next t ∧ t = { s with status := t.status } ∧
    t.err = (s.err && !x.getLsbD 7) ∧ t.status &&& 0x7F#8 = s.status &&& 0x7F#8)

/-- 45_control.md R187 to R190, 20_memory.md R58: SB, SH, SW and SD write exactly the window bytes they
cover, each by itself, and leave every other byte and every other register as it was; a misaligned one
is a bus error; SW at 0x3C issues its word; their headers. -/
def Obligations.StoresWriteExactlyTheBytesTheyCover : Prop :=
  (∀ off d, decodeRequest ⟨0b100#3 ++ off, d⟩ = .sb off (d.extractLsb' 0 8) ∧
    decodeRequest ⟨0b101#3 ++ off, d⟩ = .sh off (d.extractLsb' 0 16) ∧
    decodeRequest ⟨0b110#3 ++ off, d⟩ = .sw off (d.extractLsb' 0 32) ∧
    decodeRequest ⟨0b111#3 ++ off, d⟩ = .sd off d) ∧
  (∀ s off v, ∃ t, exec (.sb off v) s = .next t ∧ Stored off 1 (v.setWidth 64) s t) ∧
  (∀ s off v, if off.toNat % 2 ≠ 0 then exec (.sh off v) s = .fault .busError
    else ∃ t, exec (.sh off v) s = .next t ∧ Stored off 2 (v.setWidth 64) s t) ∧
  (∀ s off v, if off.toNat % 4 ≠ 0 then exec (.sw off v) s = .fault .busError
    else if off = 0x3C#8 then
      (∀ i, decodeCommand v = .ok i → exec (.sw off v) s = exec i s) ∧
      (∀ e, decodeCommand v = .error e → ∃ t, exec (.sw off v) s = .next t ∧ FailedWith 5 s t)
    else ∃ t, exec (.sw off v) s = .next t ∧ Stored off 4 (v.setWidth 64) s t) ∧
  (∀ s off v, if off.toNat % 8 ≠ 0 then exec (.sd off v) s = .fault .busError
    else ∃ t, exec (.sd off v) s = .next t ∧ Stored off 8 v s t)

/-- 70_reset_and_hazards.md R243, 45_control.md R188, R190: narrow writes over CMD do nothing, and
`SD 0x38` writes STATUS and STRLEN and ignores its CMD bytes. -/
def Obligations.OtherWidthsOverCmdIssueNothing : Prop :=
  (∀ s (off x : Byte), 0x3C#8 ≤ off → off ≤ 0x3F#8 → exec (.sb off x) s = .next s) ∧
  (∀ s x, exec (.sh 0x3C#8 x) s = .next s ∧ exec (.sh 0x3E#8 x) s = .next s) ∧
  (∀ s v, ∃ t, exec (.sd 0x38#8 v) s = .next t ∧
    t = { s with status := t.status, strlen := v.extractLsb' 8 8 } ∧
    t.err = (s.err && !v.getLsbD 7) ∧ t.status &&& 0x7F#8 = s.status &&& 0x7F#8)

/-- 20_memory.md R60: repeating a write is idempotent, but for the write that issues a command. -/
def Obligations.RepeatingAStoreIsIdempotent : Prop :=
  (∀ s off v t, exec (.sb off v) s = .next t → exec (.sb off v) t = .next t) ∧
  (∀ s off v t, exec (.sh off v) s = .next t → exec (.sh off v) t = .next t) ∧
  (∀ s off v t, off ≠ 0x3C#8 → exec (.sw off v) s = .next t → exec (.sw off v) t = .next t) ∧
  (∀ s off v t, exec (.sd off v) s = .next t → exec (.sd off v) t = .next t)

/-! The control command and the KeyedHash family. -/

/-- 45_control.md R180: NOP writes CODE = OK and nothing else; the words 0x00000100 and 0x00010000 are
illegal, not NOP. -/
def Obligations.NopOnlyReportsSuccess : Prop :=
  decodeCommand 0x00000000#32 = .ok .nop ∧
  (∀ s, ∃ t, exec .nop s = .next t ∧ Completed s t ∧ t = { s with status := t.status }) ∧
  (∃ e, decodeCommand 0x00000100#32 = .error e) ∧ (∃ e, decodeCommand 0x00010000#32 = .error e)

/-- SIPINIT starts a hash: the lanes get the constants XORed with the key words, SLEN gets 0
(41_keyed_hash.md R100, R102). The spec marks the four constants [from general knowledge, not in
source]. -/
def Obligations.SipinitStartsAHashFromTheKey : Prop :=
  decodeCommand 0x00000010#32 = .ok .sipinit ∧
  ∀ s, ∃ t, exec .sipinit s = .next t ∧ Completed s t ∧
    t = { s with lanes := t.lanes, slen := 0#8, status := t.status } ∧
    t.lanes.v0 ^^^ 0x736f6d6570736575#64 = s.key0 ∧ t.lanes.v1 ^^^ 0x646f72616e646f6d#64 = s.key1 ∧
    t.lanes.v2 ^^^ 0x6c7967656e657261#64 = s.key0 ∧ t.lanes.v3 ^^^ 0x7465646279746573#64 = s.key1

/-- 41_keyed_hash.md R103: SIPBLK absorbs DIN with two rounds and adds 8 to SLEN, modulo 256. -/
def Obligations.SipblkAbsorbsDin : Prop :=
  decodeCommand 0x00000011#32 = .ok .sipblk ∧
  ∀ s, ∃ t, exec .sipblk s = .next t ∧ Completed s t ∧
    t = { s with lanes := t.lanes, slen := t.slen, status := t.status } ∧
    t.slen.toNat = (s.slen.toNat + 8) % 256 ∧
    (let m := sipRound (sipRound { s.lanes with v3 := s.lanes.v3 ^^^ s.din })
     t.lanes = { m with v0 := m.v0 ^^^ s.din })

/-- 41_keyed_hash.md R104: SIPFIN n absorbs the block of the length byte and the low n bytes of DIN,
finalizes with four rounds, and writes DIGEST and SLEN; bytes n to 7 of DIN do not matter. -/
def Obligations.SipfinFinalizesWithTheTail : Prop :=
  (∀ n, n < 8 → decodeCommand (BitVec.ofNat 32 (0x12 + 256 * n)) = .ok (.sipfin n)) ∧
  ∀ s n, n < 8 →
    (∃ t, exec (.sipfin n) s = .next t ∧ Completed s t ∧
      t = { s with lanes := t.lanes, slen := t.slen, digest := t.digest, status := t.status } ∧
      t.slen.toNat = (s.slen.toNat + n) % 256 ∧
      (let b := BitVec.ofNat 64 (t.slen.toNat * 2 ^ 56 + s.din.toNat % 2 ^ (8 * n))
       let m := sipRound (sipRound { s.lanes with v3 := s.lanes.v3 ^^^ b })
       t.lanes = sipRound (sipRound (sipRound (sipRound
         { m with v0 := m.v0 ^^^ b, v2 := m.v2 ^^^ 0xff#64 })))) ∧
      t.digest = t.lanes.v0 ^^^ t.lanes.v1 ^^^ t.lanes.v2 ^^^ t.lanes.v3) ∧
    (∀ d : Word64, d.toNat % 2 ^ (8 * n) = s.din.toNat % 2 ^ (8 * n) →
      ∃ t u, exec (.sipfin n) s = .next t ∧ exec (.sipfin n) { s with din := d } = .next u ∧
        u = { t with din := d })

/-- 41_keyed_hash.md R105: SIPHASH L hashes the first L bytes of MSG under the key and leaves the
lanes, SLEN = L and DIGEST; the other bytes of MSG do not matter; L above 32 fails with
InvalidOperand. -/
def Obligations.SiphashDigestsTheMessageBuffer : Prop :=
  (∀ len, len < 256 → decodeCommand (BitVec.ofNat 32 (0x13 + 256 * len)) = .ok (.siphash len)) ∧
  (∀ s (m : List Byte) (h : m.length ≤ 32),
    (∀ j (hj : j < m.length), m[j] = s.msg[j]) →
    ∃ t, exec (.siphash m.length) s = .next t ∧ Completed s t ∧
      t = { s with lanes := t.lanes, slen := t.slen, digest := t.digest, status := t.status } ∧
      t.lanes = hashLanes m s.key0 s.key1 ∧ t.slen.toNat = m.length ∧
      t.digest = siphash24 m s.key0 s.key1) ∧
  (∀ s len, 32 < len → ∃ t, exec (.siphash len) s = .next t ∧ FailedWith 6 s t)

/-- SipRound is a bijection of the lane states and the all-zero state is its fixed point
(41_keyed_hash.md R101, where the spec marks the bijection [derived]). -/
def Obligations.SipRoundIsABijection : Prop :=
  Function.Bijective sipRound ∧ sipRound ⟨0#64, 0#64, 0#64, 0#64⟩ = ⟨0#64, 0#64, 0#64, 0#64⟩

/-- The streaming hash equals the one-shot digest (41_keyed_hash.md R107, which the spec marks
[derived]): from any state out of reset, for a message of any length and any key, the accesses of the
streaming hash run through and leave DIGEST and the lanes as the one-shot hash of the message does and
SLEN its length modulo 256,
with the key as it was. -/
def Obligations.StreamingHashEqualsOneShot : Prop :=
  ∀ (m : List Byte) (s : State) (rest : List Input), s.inReset = false →
    s.inputs = accessesOf (streamHash m) ++ rest →
    ∃ t, Host.Core.run core (streamHash m).length s = .next t ∧
      t.digest = siphash24 m s.key0 s.key1 ∧ t.lanes = hashLanes m s.key0 s.key1 ∧
      t.slen.toNat = m.length % 256 ∧
      t.key0 = s.key0 ∧ t.key1 = s.key1 ∧ t.inputs = rest ∧ t.code = 0#4

/-! The BitfieldOps family. -/

/-- 42_bitfield.md R121: GETVER writes the version nibble to RES. -/
def Obligations.GetverReadsTheVersionNibble : Prop :=
  decodeCommand 0x00000020#32 = .ok .getver ∧
  ∀ s, ∃ t, exec .getver s = .next t ∧ Completed s t ∧
    t = { s with res := t.res, status := t.status } ∧ t.res.toNat = versionNibble s.id

/-- 42_bitfield.md R122: SETVER v writes the version nibble and keeps the low nibble and every other
byte, for every v. -/
def Obligations.SetverWritesTheVersionNibble : Prop :=
  (∀ v : BitVec 4, decodeCommand (BitVec.ofNat 32 (0x21 + 256 * v.toNat)) = .ok (.setver v)) ∧
  ∀ s (v : BitVec 4), ∃ t, exec (.setver v) s = .next t ∧ Completed s t ∧
    t = { s with id := t.id, status := t.status } ∧
    versionNibble t.id = v.toNat ∧ t.id[6].toNat % 16 = s.id[6].toNat % 16 ∧
    (∀ j (h : j < 16), j ≠ 6 → t.id[j] = s.id[j]) ∧
    (versionNibble s.id = v.toNat → t.id = s.id)

/-- 42_bitfield.md R123: SETVAR forces the variant bits to `10`, keeps the low six bits and every other
byte, and leaves a byte that has the form already. -/
def Obligations.SetvarForcesTheVariantBits : Prop :=
  decodeCommand 0x00000022#32 = .ok .setvar ∧
  ∀ s, ∃ t, exec .setvar s = .next t ∧ Completed s t ∧
    t = { s with id := t.id, status := t.status } ∧
    variantBits t.id = 2 ∧ t.id[8].toNat % 64 = s.id[8].toNat % 64 ∧
    (∀ j (h : j < 16), j ≠ 8 → t.id[j] = s.id[j]) ∧ (variantBits s.id = 2 → t.id = s.id)

/-- 42_bitfield.md R124: VALIDATE completes on version 4 or 7 with variant `10`, else reports
InvalidVersion, or InvalidVariant where the version is good; it writes STATUS only. -/
def Obligations.ValidateChecksVersionThenVariant : Prop :=
  decodeCommand 0x00000023#32 = .ok .validate ∧
  ∀ s, ∃ t, exec .validate s = .next t ∧
    if versionNibble s.id ≠ 4 ∧ versionNibble s.id ≠ 7 then FailedWith 3 s t
    else if variantBits s.id ≠ 2 then FailedWith 4 s t
    else Completed s t ∧ t = { s with status := t.status }

/-- 42_bitfield.md R125: NEWID writes the empty identifier, all zero but ID[6] = 0x70 and
ID[8] = 0x80. -/
def Obligations.NewidWritesTheEmptyIdentifier : Prop :=
  decodeCommand 0x00000024#32 = .ok .newid ∧
  ∀ s, ∃ t, exec .newid s = .next t ∧ Completed s t ∧
    t = { s with id := t.id, status := t.status } ∧ t.id[6] = 0x70#8 ∧ t.id[8] = 0x80#8 ∧
    (∀ j (h : j < 16), j ≠ 6 → j ≠ 8 → t.id[j] = 0x00#8)

/-- The laws (1), (2), (3) and (5) of 42_bitfield.md R126, which the spec marks [derived]: SETVER then
GETVER gives v; SETVER 4 or 7, then SETVAR, then VALIDATE completes whatever ID held; SETVER and
SETVAR commute; NEWID validates and has version 7. -/
def Obligations.BitfieldLawsHold : Prop :=
  (∀ s v, ∃ t u, exec (.setver v) s = .next t ∧ exec .getver t = .next u ∧
    u.res.toNat = v.toNat) ∧
  (∀ s v, v = 4#4 ∨ v = 7#4 → ∃ t u w, exec (.setver v) s = .next t ∧ exec .setvar t = .next u ∧
    exec .validate u = .next w ∧ w.code = 0#4) ∧
  (∀ s v, ∃ t u w, exec (.setver v) s = .next t ∧ exec .setvar t = .next w ∧
    exec .setvar s = .next u ∧ exec (.setver v) u = .next w) ∧
  (∀ s, ∃ t u w, exec .newid s = .next t ∧ exec .validate t = .next u ∧ u.code = 0#4 ∧
    exec .getver t = .next w ∧ w.res = 7#64)

/-! The TextCodec family. -/

/-- 43_text_codec.md R142, R144: PARSE fails with InvalidLength, InvalidHex, InvalidVersion or
InvalidVariant, the first that applies, and changes only STATUS; else ID gets the parsed bytes. -/
def Obligations.ParseReadsTheCanonicalText : Prop :=
  decodeCommand 0x00000030#32 = .ok .parse ∧
  (∀ s, s.strlen.toNat ≠ 36 → ∃ t, exec .parse s = .next t ∧ FailedWith 1 s t) ∧
  (∀ s, s.strlen.toNat = 36 → (¬ ∃ b, Parsed s b) →
    ∃ t, exec .parse s = .next t ∧ FailedWith 2 s t) ∧
  (∀ s b, Parsed s b → ∃ t, exec .parse s = .next t ∧
    if versionNibble b ≠ 4 ∧ versionNibble b ≠ 7 then FailedWith 3 s t
    else if variantBits b ≠ 2 then FailedWith 4 s t
    else Completed s t ∧ t = { s with id := b, status := t.status })

/-- 43_text_codec.md R142, R145: PARSERAW fails with InvalidLength or InvalidHex and changes only
STATUS; else ID gets the parsed bytes, whatever their version and variant. -/
def Obligations.ParserawReadsTheTextUnvalidated : Prop :=
  decodeCommand 0x00000031#32 = .ok .parseraw ∧
  (∀ s, s.strlen.toNat ≠ 36 → ∃ t, exec .parseraw s = .next t ∧ FailedWith 1 s t) ∧
  (∀ s, s.strlen.toNat = 36 → (¬ ∃ b, Parsed s b) →
    ∃ t, exec .parseraw s = .next t ∧ FailedWith 2 s t) ∧
  (∀ s b, Parsed s b → ∃ t, exec .parseraw s = .next t ∧ Completed s t ∧
    t = { s with id := b, status := t.status })

/-- 43_text_codec.md R146: FORMAT writes the lowercase canonical text of ID to all 36 bytes of STR and
36 to STRLEN, for every ID; its octets are digits, `a` to `f` and hyphens only. -/
def Obligations.FormatWritesTheLowercaseText : Prop :=
  decodeCommand 0x00000032#32 = .ok .format ∧
  ∀ s, ∃ t, exec .format s = .next t ∧ Completed s t ∧
    t = { s with str := t.str, strlen := 36#8, status := t.status } ∧ TextOf t.str s.id ∧
    (∀ j (h : j < 36), (0x30#8 ≤ t.str[j] ∧ t.str[j] ≤ 0x39#8) ∨
      (0x61#8 ≤ t.str[j] ∧ t.str[j] ≤ 0x66#8) ∨ t.str[j] = 0x2D#8)

/-- The round trips of 43_text_codec.md R147, which the spec marks [derived] (90_conflicts.md C1):
FORMAT then PARSERAW keeps every ID, FORMAT then PARSE every valid one; PARSE then FORMAT keeps every
lowercase canonical text of a valid identifier. -/
def Obligations.TextRoundTrips : Prop :=
  (∀ s, ∃ t u, exec .format s = .next t ∧ exec .parseraw t = .next u ∧ u.id = s.id ∧
    u.code = 0#4) ∧
  (∀ s, ValidId s.id → ∃ t u, exec .format s = .next t ∧ exec .parse t = .next u ∧
    u.id = s.id ∧ u.code = 0#4) ∧
  (∀ s b, s.strlen.toNat = 36 → TextOf s.str b → ValidId b →
    ∃ t u, exec .parse s = .next t ∧ t.id = b ∧ exec .format t = .next u ∧ u.str = s.str)

/-! The FacadeTransform family. -/

/-- 44_facade.md R161, R162: MASK writes the low 48 bits of the digest of M to RES, zero-extended, and
the lanes, SLEN = 10 and DIGEST as its hash leaves them; ID is unchanged. -/
def Obligations.MaskComputesTheMask : Prop :=
  decodeCommand 0x00000040#32 = .ok .mask ∧
  ∀ s, ∃ t, exec .mask s = .next t ∧ Completed s t ∧
    t = { s with res := t.res, lanes := t.lanes, slen := t.slen, digest := t.digest,
                 status := t.status } ∧
    MaskComputed s t ∧ t.res.toNat = t.digest.toNat % 2 ^ 48

/-- 44_facade.md R163: ENCODE XORs the timestamp with the mask, sets version 4 and variant `10`, keeps
the payload, for every input. -/
def Obligations.EncodeMasksTheTimestamp : Prop :=
  decodeCommand 0x00000041#32 = .ok .encode ∧
  ∀ s, ∃ t, exec .encode s = .next t ∧ Transformed 4 s t

/-- 44_facade.md R164: DECODE is the same with version 7, for every input and key. -/
def Obligations.DecodeUnmasksTheTimestamp : Prop :=
  decodeCommand 0x00000042#32 = .ok .decode ∧
  ∀ s, ∃ t, exec .decode s = .next t ∧ Transformed 7 s t

/-- The round trip of 44_facade.md R165, which the spec marks [derived] (90_conflicts.md C5): ENCODE
then DECODE restores the timestamp and the payload always, leaves version 7 and variant `10`, and
restores ID when and only when it had version 7 and variant `10`; likewise DECODE then ENCODE restores
an ID of version 4 and variant `10`. -/
def Obligations.FacadeRoundTrip : Prop :=
  (∀ s, ∃ t u, exec .encode s = .next t ∧ exec .decode t = .next u ∧
    (∀ j (h : j < 6), u.id[j] = s.id[j]) ∧ SamePayload u.id s.id ∧
    versionNibble u.id = 7 ∧ variantBits u.id = 2 ∧
    (u.id = s.id ↔ versionNibble s.id = 7 ∧ variantBits s.id = 2)) ∧
  (∀ s, versionNibble s.id = 4 → variantBits s.id = 2 →
    ∃ t u, exec .decode s = .next t ∧ exec .encode t = .next u ∧ u.id = s.id)

/-- The facade's shape (44_facade.md R166, which the spec marks [derived]): after ENCODE of any ID
under any key VALIDATE completes, GETVER gives 4 and the payload is unchanged. -/
def Obligations.FacadeAlwaysValidates : Prop :=
  ∀ s, ∃ t u w, exec .encode s = .next t ∧ SamePayload t.id s.id ∧
    exec .validate t = .next u ∧ u.code = 0#4 ∧ exec .getver t = .next w ∧ w.res = 4#64

/-- The mask depends on the key and the payload only (44_facade.md R161, marked [derived] there):
states that agree on those get the same RES and DIGEST from MASK. -/
def Obligations.MaskIgnoresTimestampAndMarkers : Prop :=
  ∀ s s', s.key0 = s'.key0 → s.key1 = s'.key1 → SamePayload s.id s'.id →
    ∃ t t', exec .mask s = .next t ∧ exec .mask s' = .next t' ∧ t.res = t'.res ∧
      t.digest = t'.digest ∧ t.lanes = t'.lanes

/-- ENCODE twice restores the timestamp and leaves version 4 (44_facade.md R167, marked [derived]
there). -/
def Obligations.EncodeTwiceRestoresTheTimestamp : Prop :=
  ∀ s, ∃ t u, exec .encode s = .next t ∧ exec .encode t = .next u ∧
    (∀ j (h : j < 6), u.id[j] = s.id[j]) ∧ versionNibble u.id = 4

/-! Rules about the whole machine. -/

/-- 60_exceptions.md R202, R203: every command either completes, with CODE 0 and ERR kept, or fails,
with a non-zero CODE, ERR set and no other register changed. -/
def Obligations.CommandsCompleteOrFailPrecisely : Prop :=
  ∀ i s, i.isCommand = true → ∃ t, exec i s = .next t ∧
    (Completed s t ∨ ∃ c, 1 ≤ c ∧ c ≤ 6 ∧ FailedWith c s t)

/-- Which commands can fail, once decoded, and with which codes (60_exceptions.md R201): VALIDATE with
3 and 4, PARSE with 1 to 4, PARSERAW with 1 and 2, SIPHASH with 6, no other command at all. -/
def Obligations.EachCommandFailsOnlyWithItsCodes : Prop :=
  ∀ i s, i.isCommand = true → ∃ t, exec i s = .next t ∧
    (t.code = 0#4 ∨ t.code.toNat ∈ failureCodes i)

/-- 10_state.md R34: ERR is sticky. A command that ends with a non-zero CODE sets it, no command clears
it, a host write of a 1 to bit 7 of 0x38 clears it, and in a step nothing else does but reset. -/
def Obligations.ErrIsSticky : Prop :=
  (∀ i s, i.isCommand = true → ∃ t, exec i s = .next t ∧ (t.code ≠ 0#4 → t.err = true) ∧
    (s.err = true → t.err = true)) ∧
  (∀ s (x : Byte), x.getLsbD 7 = true → ∃ t, exec (.sb 0x38#8 x) s = .next t ∧ t.err = false) ∧
  (∀ s t, step s = .next t → s.err = true → t.err = false →
    (∃ rest, s.nextAction = .resetLine true rest) ∨
    (∃ r rest, s.nextAction = .access r rest ∧ clearsErr (decodeRequest r) = true))

/-- The writers' column of the register table (10_state.md section 1): every command completes or fails
with KEY0, KEY1, DIN and MSG unchanged, and changes ID, DIGEST, RES, STRLEN, STR, SLEN and the lanes
only where the table lists it; the host's side is unchanged. -/
def Obligations.OnlyListedCommandsWriteARegister : Prop :=
  ∀ i s, i.isCommand = true → ∃ t, exec i s = .next t ∧
    t = { s with id := t.id, digest := t.digest, res := t.res, status := t.status,
                 strlen := t.strlen, slen := t.slen, str := t.str, lanes := t.lanes } ∧
    (writesId i = false → t.id = s.id) ∧ (writesDigest i = false → t.digest = s.digest) ∧
    (writesRes i = false → t.res = s.res) ∧
    (writesLanes i = false → t.slen = s.slen ∧ t.lanes = s.lanes) ∧
    (writesText i = false → t.strlen = s.strlen ∧ t.str = s.str)

/-- The window seen across a command: every byte outside the registers the command may write reads as
before (10_state.md section 1, 20_memory.md R51). -/
def Obligations.CommandsKeepUnlistedWindowBytes : Prop :=
  ∀ i s, i.isCommand = true → ∃ t, exec i s = .next t ∧
    ∀ a, mayWriteOffset i a = false → rbyte t a = rbyte s a

/-- The key and the lanes stay hidden (10_state.md R22, R26; 60_exceptions.md R210): two states that
differ only in KEY0, KEY1 and the lanes give the same answers and stay alike under every instruction
that does not write DIGEST. -/
def Obligations.SecretsReachTheHostOnlyThroughDigests : Prop :=
  ∀ i s s', SameButSecrets s s' → revealsDigest i = false →
    (exec i s = .fault .busError ∧ exec i s' = .fault .busError) ∨
    ∃ t t', exec i s = .next t ∧ exec i s' = .next t' ∧ SameButSecrets t t' ∧
      t'.rdata = t.rdata ∧ ∀ a, rbyte t' a = rbyte t a

/-- The invariant holds at reset: STATUS is legal and RES is short. -/
def Obligations.InvAtReset : Prop := State.reset.Inv

/-- Every step keeps the invariant, from every state that has it: the reserved bits of STATUS stay 0
and CODE stays at most 6 (10_state.md R32, R33; 93 S5, S6), and RES never exceeds 48 bits (10_state.md
R25, 44_facade.md R162). -/
def Obligations.StepKeepsInv : Prop :=
  ∀ s t, s.Inv → step s = .next t → t.Inv

/-- A safe queue of inputs runs through: when no access is misaligned and reset ends released, no step
ever stops, and after as many steps as there are inputs all of them have taken effect, out of reset
(60_exceptions.md R216; 93 S9, S10; log entries 1 and 3). -/
def Obligations.SafeInputsRunThrough : Prop :=
  ∀ s : State, s.Safe →
    (∃ t, Host.Core.run core s.inputs.length s = .next t ∧ t.inputs = [] ∧ t.inReset = false) ∧
    (∀ k, ∃ t, Host.Core.run core k s = .next t)
end

