-- ==== Sys2Proof/Laws/Decode.lean ====
section
/-! SUPPORT. What the decoders can answer (spec/30_encoding.md R82, R86). -/

namespace Sys2Proof.Laws

theorem decodeZ_ok {imm : Byte} {i j : Instr} (h : decodeZ imm i = .ok j) : imm = 0#8 ∧ j = i := by
  unfold decodeZ at h
  split at h
  · exact ⟨‹_›, by injection h with h; exact h.symm⟩
  · contradiction

theorem decodeN3_ok {imm : Byte} {i : Nat → Instr} {j : Instr} (h : decodeN3 imm i = .ok j) :
    imm.extractLsb' 3 5 = 0#5 ∧ j = i (imm.extractLsb' 0 3).toNat := by
  unfold decodeN3 at h
  split at h
  · exact ⟨‹_›, by injection h with h; exact h.symm⟩
  · contradiction

theorem decodeV4_ok {imm : Byte} {i : BitVec 4 → Instr} {j : Instr} (h : decodeV4 imm i = .ok j) :
    imm.extractLsb' 4 4 = 0#4 ∧ j = i (imm.extractLsb' 0 4) := by
  unfold decodeV4 at h
  split at h
  · exact ⟨‹_›, by injection h with h; exact h.symm⟩
  · contradiction

/-- Everything the decoder of command words can answer: RSV is zero, and the opcode and the operand
bits are those of the answer's row. -/
theorem decodeCommand_ok {w : BitVec 32} {i : Instr} (h : decodeCommand w = .ok i) :
    rsvField w = 0#16 ∧
    ((immField w = 0#8 ∧
        ((opcField w = 0x00#8 ∧ i = .nop) ∨ (opcField w = 0x10#8 ∧ i = .sipinit) ∨
         (opcField w = 0x11#8 ∧ i = .sipblk) ∨ (opcField w = 0x20#8 ∧ i = .getver) ∨
         (opcField w = 0x22#8 ∧ i = .setvar) ∨ (opcField w = 0x23#8 ∧ i = .validate) ∨
         (opcField w = 0x24#8 ∧ i = .newid) ∨ (opcField w = 0x30#8 ∧ i = .parse) ∨
         (opcField w = 0x31#8 ∧ i = .parseraw) ∨ (opcField w = 0x32#8 ∧ i = .format) ∨
         (opcField w = 0x40#8 ∧ i = .mask) ∨ (opcField w = 0x41#8 ∧ i = .encode) ∨
         (opcField w = 0x42#8 ∧ i = .decode))) ∨
     (opcField w = 0x12#8 ∧ (immField w).extractLsb' 3 5 = 0#5 ∧
        i = .sipfin ((immField w).extractLsb' 0 3).toNat) ∨
     (opcField w = 0x21#8 ∧ (immField w).extractLsb' 4 4 = 0#4 ∧
        i = .setver ((immField w).extractLsb' 0 4)) ∨
     (opcField w = 0x13#8 ∧ i = .siphash (immField w).toNat)) := by
  unfold decodeCommand at h
  split at h
  · contradiction
  · rename_i hr
    refine ⟨by simpa using hr, ?_⟩
    split at h
    all_goals first
      | contradiction
      | (obtain ⟨h0, rfl⟩ := decodeZ_ok h; simp [*])
      | (obtain ⟨h0, rfl⟩ := decodeN3_ok h; simp [*])
      | (obtain ⟨h0, rfl⟩ := decodeV4_ok h; simp [*])
      | (injection h with h; subst h; simp [*])

/-- A word that decodes stands for a command, never for a host transaction. -/
theorem decodeCommand_isCommand {w : BitVec 32} {i : Instr} (h : decodeCommand w = .ok i) :
    i.isCommand = true := by
  have row := decodeCommand_ok h
  cases i <;> first | rfl | simp at row

/-- Everything the decoder of requests can answer. -/
theorem decodeRequest_cases (r : Request) :
    (r.we = false ∧ r.size = 0#2 ∧ decodeRequest r = .lb r.off) ∨
    (r.we = false ∧ r.size = 1#2 ∧ decodeRequest r = .lh r.off) ∨
    (r.we = false ∧ r.size = 2#2 ∧ decodeRequest r = .lw r.off) ∨
    (r.we = false ∧ r.size = 3#2 ∧ decodeRequest r = .ld r.off) ∨
    (r.we = true ∧ r.size = 0#2 ∧ decodeRequest r = .sb r.off (r.wdata.extractLsb' 0 8)) ∨
    (r.we = true ∧ r.size = 1#2 ∧ decodeRequest r = .sh r.off (r.wdata.extractLsb' 0 16)) ∨
    (r.we = true ∧ r.size = 2#2 ∧ decodeRequest r = .sw r.off (r.wdata.extractLsb' 0 32)) ∨
    (r.we = true ∧ r.size = 3#2 ∧ decodeRequest r = .sd r.off r.wdata) := by
  have hs : ∀ b : BitVec 2, b = 0#2 ∨ b = 1#2 ∨ b = 2#2 ∨ b = 3#2 := by decide
  unfold decodeRequest
  cases r.we <;> rcases hs r.size with h | h | h | h <;> simp [h]

/-! The fields of the words the encoder writes. -/

@[simp] theorem opcField_commandWord (opc imm : Byte) : opcField (commandWord opc imm) = opc := by
  apply BitVec.eq_of_getLsbD_eq
  intro i hi
  simp only [opcField, commandWord, BitVec.getLsbD_extractLsb', BitVec.getLsbD_append]
  simp [hi]

@[simp] theorem immField_commandWord (opc imm : Byte) : immField (commandWord opc imm) = imm := by
  apply BitVec.eq_of_getLsbD_eq
  intro i hi
  simp only [immField, commandWord, BitVec.getLsbD_extractLsb', BitVec.getLsbD_append]
  simp [hi]

@[simp] theorem rsvField_commandWord (opc imm : Byte) : rsvField (commandWord opc imm) = 0#16 := by
  apply BitVec.eq_of_getLsbD_eq
  intro i hi
  simp only [rsvField, commandWord, BitVec.getLsbD_extractLsb', BitVec.getLsbD_append]
  simp [hi, show ¬ 16 + i < 8 by omega, show ¬ 16 + i - 8 < 8 by omega]

/-- A command word is its fields. -/
theorem word_of_fields {w : BitVec 32} (h : rsvField w = 0#16) :
    w = commandWord (opcField w) (immField w) := by
  apply BitVec.eq_of_getLsbD_eq
  intro i hi
  have hb := congrArg (fun b => b.getLsbD (i - 16)) h
  simp only [rsvField, BitVec.getLsbD_extractLsb', BitVec.getLsbD_zero] at hb
  simp only [commandWord, opcField, immField, BitVec.getLsbD_append, BitVec.getLsbD_extractLsb',
    BitVec.getLsbD_zero]
  by_cases h1 : i < 8
  · simp [h1]
  · by_cases h2 : i < 16
    · have e : 8 + (i - 8) = i := by omega
      simp [h1, show i - 8 < 8 by omega, e]
    · have e : 16 + (i - 16) = i := by omega
      simp only [show i - 16 < 16 by omega, e, decide_true, Bool.true_and] at hb
      simp [h1, show ¬ i - 8 < 8 by omega, hb]

@[simp] theorem we_busHeader (we : Bool) (size : BitVec 2) (off : Byte) (d : Word64) :
    (Request.mk (busHeader we size off) d).we = we := by
  simp only [Request.we, busHeader, BitVec.getLsbD_append]
  simp

@[simp] theorem size_busHeader (we : Bool) (size : BitVec 2) (off : Byte) (d : Word64) :
    (Request.mk (busHeader we size off) d).size = size := by
  apply BitVec.eq_of_getLsbD_eq
  intro i hi
  simp only [Request.size, busHeader, BitVec.getLsbD_extractLsb', BitVec.getLsbD_append]
  simp [hi]

@[simp] theorem off_busHeader (we : Bool) (size : BitVec 2) (off : Byte) (d : Word64) :
    (Request.mk (busHeader we size off) d).off = off := by
  apply BitVec.eq_of_getLsbD_eq
  intro i hi
  simp only [Request.off, busHeader, BitVec.getLsbD_extractLsb', BitVec.getLsbD_append]
  simp [hi]

/-- A request header is its fields. -/
theorem header_of_fields (r : Request) : r.header = busHeader r.we r.size r.off := by
  apply BitVec.eq_of_getLsbD_eq
  intro i hi
  simp only [busHeader, Request.we, Request.size, Request.off, BitVec.getLsbD_append,
    BitVec.getLsbD_extractLsb']
  by_cases h1 : i < 8
  · simp [h1]
  · by_cases h2 : i < 10
    · have e : 8 + (i - 8) = i := by omega
      simp [h1, show i - 8 < 2 by omega, e]
    · have e : i = 10 := by omega
      subst e
      simp

/-- The low bits of a widened value are the value. -/
theorem extractLsb'_setWidth_64 {n : Nat} (v : BitVec n) (h : n ≤ 64) :
    (v.setWidth 64).extractLsb' 0 n = v := by
  apply BitVec.eq_of_toNat_eq
  have hv : v.toNat < 2 ^ 64 := Nat.lt_of_lt_of_le v.isLt (Nat.pow_le_pow_right (by decide) h)
  rw [BitVec.extractLsb'_toNat, BitVec.toNat_setWidth, Nat.mod_eq_of_lt hv, Nat.shiftRight_zero,
    Nat.mod_eq_of_lt v.isLt]

/-- The transaction that issues a word is `SW 0x3C` of the word. -/
@[simp] theorem decodeRequest_issueRequest (w : BitVec 32) :
    decodeRequest (issueRequest w) = .sw cmdOffset w := by
  simp only [issueRequest, decodeRequest, we_busHeader, size_busHeader, off_busHeader]
  simp [extractLsb'_setWidth_64 w (by decide)]

end Sys2Proof.Laws
end

