-- ==== Sys2Proof/Laws/State.lean ====
section
/-! SUPPORT. What each named update of the state leaves in each field: one lemma per field per update,
true by definition, so that no later proof unfolds a record update. -/

namespace Sys2Proof.Machine

@[simp] theorem State.complete_id (s : State) :
    s.complete.id = s.id := rfl
@[simp] theorem State.complete_key0 (s : State) :
    s.complete.key0 = s.key0 := rfl
@[simp] theorem State.complete_key1 (s : State) :
    s.complete.key1 = s.key1 := rfl
@[simp] theorem State.complete_din (s : State) :
    s.complete.din = s.din := rfl
@[simp] theorem State.complete_digest (s : State) :
    s.complete.digest = s.digest := rfl
@[simp] theorem State.complete_res (s : State) :
    s.complete.res = s.res := rfl
@[simp] theorem State.complete_status (s : State) :
    s.complete.status = statusCompleted s.status := rfl
@[simp] theorem State.complete_strlen (s : State) :
    s.complete.strlen = s.strlen := rfl
@[simp] theorem State.complete_slen (s : State) :
    s.complete.slen = s.slen := rfl
@[simp] theorem State.complete_str (s : State) :
    s.complete.str = s.str := rfl
@[simp] theorem State.complete_msg (s : State) :
    s.complete.msg = s.msg := rfl
@[simp] theorem State.complete_lanes (s : State) :
    s.complete.lanes = s.lanes := rfl
@[simp] theorem State.complete_inReset (s : State) :
    s.complete.inReset = s.inReset := rfl
@[simp] theorem State.complete_inputs (s : State) :
    s.complete.inputs = s.inputs := rfl
@[simp] theorem State.complete_rdata (s : State) :
    s.complete.rdata = s.rdata := rfl

@[simp] theorem State.fail_id (c : Code) (s : State) :
    (s.fail c).id = s.id := rfl
@[simp] theorem State.fail_key0 (c : Code) (s : State) :
    (s.fail c).key0 = s.key0 := rfl
@[simp] theorem State.fail_key1 (c : Code) (s : State) :
    (s.fail c).key1 = s.key1 := rfl
@[simp] theorem State.fail_din (c : Code) (s : State) :
    (s.fail c).din = s.din := rfl
@[simp] theorem State.fail_digest (c : Code) (s : State) :
    (s.fail c).digest = s.digest := rfl
@[simp] theorem State.fail_res (c : Code) (s : State) :
    (s.fail c).res = s.res := rfl
@[simp] theorem State.fail_status (c : Code) (s : State) :
    (s.fail c).status = statusFailed c s.status := rfl
@[simp] theorem State.fail_strlen (c : Code) (s : State) :
    (s.fail c).strlen = s.strlen := rfl
@[simp] theorem State.fail_slen (c : Code) (s : State) :
    (s.fail c).slen = s.slen := rfl
@[simp] theorem State.fail_str (c : Code) (s : State) :
    (s.fail c).str = s.str := rfl
@[simp] theorem State.fail_msg (c : Code) (s : State) :
    (s.fail c).msg = s.msg := rfl
@[simp] theorem State.fail_lanes (c : Code) (s : State) :
    (s.fail c).lanes = s.lanes := rfl
@[simp] theorem State.fail_inReset (c : Code) (s : State) :
    (s.fail c).inReset = s.inReset := rfl
@[simp] theorem State.fail_inputs (c : Code) (s : State) :
    (s.fail c).inputs = s.inputs := rfl
@[simp] theorem State.fail_rdata (c : Code) (s : State) :
    (s.fail c).rdata = s.rdata := rfl

@[simp] theorem State.respond_id (v : Word64) (s : State) :
    (s.respond v).id = s.id := rfl
@[simp] theorem State.respond_key0 (v : Word64) (s : State) :
    (s.respond v).key0 = s.key0 := rfl
@[simp] theorem State.respond_key1 (v : Word64) (s : State) :
    (s.respond v).key1 = s.key1 := rfl
@[simp] theorem State.respond_din (v : Word64) (s : State) :
    (s.respond v).din = s.din := rfl
@[simp] theorem State.respond_digest (v : Word64) (s : State) :
    (s.respond v).digest = s.digest := rfl
@[simp] theorem State.respond_res (v : Word64) (s : State) :
    (s.respond v).res = s.res := rfl
@[simp] theorem State.respond_status (v : Word64) (s : State) :
    (s.respond v).status = s.status := rfl
@[simp] theorem State.respond_strlen (v : Word64) (s : State) :
    (s.respond v).strlen = s.strlen := rfl
@[simp] theorem State.respond_slen (v : Word64) (s : State) :
    (s.respond v).slen = s.slen := rfl
@[simp] theorem State.respond_str (v : Word64) (s : State) :
    (s.respond v).str = s.str := rfl
@[simp] theorem State.respond_msg (v : Word64) (s : State) :
    (s.respond v).msg = s.msg := rfl
@[simp] theorem State.respond_lanes (v : Word64) (s : State) :
    (s.respond v).lanes = s.lanes := rfl
@[simp] theorem State.respond_inReset (v : Word64) (s : State) :
    (s.respond v).inReset = s.inReset := rfl
@[simp] theorem State.respond_inputs (v : Word64) (s : State) :
    (s.respond v).inputs = s.inputs := rfl
@[simp] theorem State.respond_rdata (v : Word64) (s : State) :
    (s.respond v).rdata = some v := rfl

@[simp] theorem State.hashMessage_id (m : List Byte) (s : State) :
    (s.hashMessage m).id = s.id := rfl
@[simp] theorem State.hashMessage_key0 (m : List Byte) (s : State) :
    (s.hashMessage m).key0 = s.key0 := rfl
@[simp] theorem State.hashMessage_key1 (m : List Byte) (s : State) :
    (s.hashMessage m).key1 = s.key1 := rfl
@[simp] theorem State.hashMessage_din (m : List Byte) (s : State) :
    (s.hashMessage m).din = s.din := rfl
@[simp] theorem State.hashMessage_digest (m : List Byte) (s : State) :
    (s.hashMessage m).digest = siphash24 m s.key0 s.key1 := rfl
@[simp] theorem State.hashMessage_res (m : List Byte) (s : State) :
    (s.hashMessage m).res = s.res := rfl
@[simp] theorem State.hashMessage_status (m : List Byte) (s : State) :
    (s.hashMessage m).status = s.status := rfl
@[simp] theorem State.hashMessage_strlen (m : List Byte) (s : State) :
    (s.hashMessage m).strlen = s.strlen := rfl
@[simp] theorem State.hashMessage_slen (m : List Byte) (s : State) :
    (s.hashMessage m).slen = BitVec.ofNat 8 m.length := rfl
@[simp] theorem State.hashMessage_str (m : List Byte) (s : State) :
    (s.hashMessage m).str = s.str := rfl
@[simp] theorem State.hashMessage_msg (m : List Byte) (s : State) :
    (s.hashMessage m).msg = s.msg := rfl
@[simp] theorem State.hashMessage_lanes (m : List Byte) (s : State) :
    (s.hashMessage m).lanes = hashLanes m s.key0 s.key1 := rfl
@[simp] theorem State.hashMessage_inReset (m : List Byte) (s : State) :
    (s.hashMessage m).inReset = s.inReset := rfl
@[simp] theorem State.hashMessage_inputs (m : List Byte) (s : State) :
    (s.hashMessage m).inputs = s.inputs := rfl
@[simp] theorem State.hashMessage_rdata (m : List Byte) (s : State) :
    (s.hashMessage m).rdata = s.rdata := rfl

@[simp] theorem State.computeMask_id (s : State) :
    s.computeMask.id = s.id := rfl
@[simp] theorem State.computeMask_key0 (s : State) :
    s.computeMask.key0 = s.key0 := rfl
@[simp] theorem State.computeMask_key1 (s : State) :
    s.computeMask.key1 = s.key1 := rfl
@[simp] theorem State.computeMask_din (s : State) :
    s.computeMask.din = s.din := rfl
@[simp] theorem State.computeMask_digest (s : State) :
    s.computeMask.digest = siphash24 (invariantMessage s.id) s.key0 s.key1 := rfl
@[simp] theorem State.computeMask_res (s : State) :
    s.computeMask.res = s.res := rfl
@[simp] theorem State.computeMask_status (s : State) :
    s.computeMask.status = s.status := rfl
@[simp] theorem State.computeMask_strlen (s : State) :
    s.computeMask.strlen = s.strlen := rfl
@[simp] theorem State.computeMask_slen (s : State) :
    s.computeMask.slen = 10#8 := rfl
@[simp] theorem State.computeMask_str (s : State) :
    s.computeMask.str = s.str := rfl
@[simp] theorem State.computeMask_msg (s : State) :
    s.computeMask.msg = s.msg := rfl
@[simp] theorem State.computeMask_lanes (s : State) :
    s.computeMask.lanes = hashLanes (invariantMessage s.id) s.key0 s.key1 := rfl
@[simp] theorem State.computeMask_inReset (s : State) :
    s.computeMask.inReset = s.inReset := rfl
@[simp] theorem State.computeMask_inputs (s : State) :
    s.computeMask.inputs = s.inputs := rfl
@[simp] theorem State.computeMask_rdata (s : State) :
    s.computeMask.rdata = s.rdata := rfl

@[simp] theorem State.withInputs_id (rest : List Input) (s : State) :
    (s.withInputs rest).id = s.id := rfl
@[simp] theorem State.withInputs_key0 (rest : List Input) (s : State) :
    (s.withInputs rest).key0 = s.key0 := rfl
@[simp] theorem State.withInputs_key1 (rest : List Input) (s : State) :
    (s.withInputs rest).key1 = s.key1 := rfl
@[simp] theorem State.withInputs_din (rest : List Input) (s : State) :
    (s.withInputs rest).din = s.din := rfl
@[simp] theorem State.withInputs_digest (rest : List Input) (s : State) :
    (s.withInputs rest).digest = s.digest := rfl
@[simp] theorem State.withInputs_res (rest : List Input) (s : State) :
    (s.withInputs rest).res = s.res := rfl
@[simp] theorem State.withInputs_status (rest : List Input) (s : State) :
    (s.withInputs rest).status = s.status := rfl
@[simp] theorem State.withInputs_strlen (rest : List Input) (s : State) :
    (s.withInputs rest).strlen = s.strlen := rfl
@[simp] theorem State.withInputs_slen (rest : List Input) (s : State) :
    (s.withInputs rest).slen = s.slen := rfl
@[simp] theorem State.withInputs_str (rest : List Input) (s : State) :
    (s.withInputs rest).str = s.str := rfl
@[simp] theorem State.withInputs_msg (rest : List Input) (s : State) :
    (s.withInputs rest).msg = s.msg := rfl
@[simp] theorem State.withInputs_lanes (rest : List Input) (s : State) :
    (s.withInputs rest).lanes = s.lanes := rfl
@[simp] theorem State.withInputs_inReset (rest : List Input) (s : State) :
    (s.withInputs rest).inReset = s.inReset := rfl
@[simp] theorem State.withInputs_inputs (rest : List Input) (s : State) :
    (s.withInputs rest).inputs = rest := rfl
@[simp] theorem State.withInputs_rdata (rest : List Input) (s : State) :
    (s.withInputs rest).rdata = s.rdata := rfl

@[simp] theorem State.placeRequest_id (r : Request) (s : State) :
    (s.placeRequest r).id = s.id := rfl
@[simp] theorem State.placeRequest_key0 (r : Request) (s : State) :
    (s.placeRequest r).key0 = s.key0 := rfl
@[simp] theorem State.placeRequest_key1 (r : Request) (s : State) :
    (s.placeRequest r).key1 = s.key1 := rfl
@[simp] theorem State.placeRequest_din (r : Request) (s : State) :
    (s.placeRequest r).din = s.din := rfl
@[simp] theorem State.placeRequest_digest (r : Request) (s : State) :
    (s.placeRequest r).digest = s.digest := rfl
@[simp] theorem State.placeRequest_res (r : Request) (s : State) :
    (s.placeRequest r).res = s.res := rfl
@[simp] theorem State.placeRequest_status (r : Request) (s : State) :
    (s.placeRequest r).status = s.status := rfl
@[simp] theorem State.placeRequest_strlen (r : Request) (s : State) :
    (s.placeRequest r).strlen = s.strlen := rfl
@[simp] theorem State.placeRequest_slen (r : Request) (s : State) :
    (s.placeRequest r).slen = s.slen := rfl
@[simp] theorem State.placeRequest_str (r : Request) (s : State) :
    (s.placeRequest r).str = s.str := rfl
@[simp] theorem State.placeRequest_msg (r : Request) (s : State) :
    (s.placeRequest r).msg = s.msg := rfl
@[simp] theorem State.placeRequest_lanes (r : Request) (s : State) :
    (s.placeRequest r).lanes = s.lanes := rfl
@[simp] theorem State.placeRequest_inReset (r : Request) (s : State) :
    (s.placeRequest r).inReset = false := rfl
@[simp] theorem State.placeRequest_inputs (r : Request) (s : State) :
    (s.placeRequest r).inputs = .access r :: s.inputs := rfl
@[simp] theorem State.placeRequest_rdata (r : Request) (s : State) :
    (s.placeRequest r).rdata = s.rdata := rfl

/-- Asserting reset, in one equation. -/
@[simp] theorem State.driveReset_true (s : State) :
    s.driveReset true =
      { State.reset with inReset := true, inputs := s.inputs, rdata := s.rdata } := rfl

/-- Releasing reset, in one equation. -/
@[simp] theorem State.driveReset_false (s : State) :
    s.driveReset false = { s with inReset := false } := rfl

end Sys2Proof.Machine
end

