-- ==== Sys2Proof/Laws/Flags.lean ====
section
/-! SUPPORT. The fields of STATUS after a command completes or fails and after a host write
(spec/60_exceptions.md R202, R203; spec/10_state.md R34). -/

namespace Sys2Proof.Machine

@[simp] theorem statusCompleted_code (st : Byte) :
    (statusCompleted st).extractLsb' 0 4 = 0#4 := by
  revert st; decide

@[simp] theorem statusCompleted_high (st : Byte) :
    (statusCompleted st).extractLsb' 4 4 = st.extractLsb' 4 4 := by
  revert st; decide

@[simp] theorem statusCompleted_err (st : Byte) :
    (statusCompleted st).getLsbD 7 = st.getLsbD 7 := by
  revert st; decide

@[simp] theorem statusFailed_code (c : Code) (st : Byte) :
    (statusFailed c st).extractLsb' 0 4 = codeBits c := by
  revert st; cases c <;> decide

@[simp] theorem statusFailed_err (c : Code) (st : Byte) :
    (statusFailed c st).getLsbD 7 = true := by
  revert st; cases c <;> decide

@[simp] theorem statusFailed_reserved (c : Code) (st : Byte) :
    (statusFailed c st).extractLsb' 4 3 = st.extractLsb' 4 3 := by
  revert st; cases c <;> decide

@[simp] theorem statusWritten_keeps (x st : Byte) :
    statusWritten x st &&& 0x7F#8 = st &&& 0x7F#8 := by
  unfold statusWritten
  split
  · rw [BitVec.and_assoc]; rfl
  · rfl

@[simp] theorem statusWritten_err (x st : Byte) :
    (statusWritten x st).getLsbD 7 = (st.getLsbD 7 && !x.getLsbD 7) := by
  unfold statusWritten
  cases x.getLsbD 7 <;> simp

@[simp] theorem State.complete_code (s : State) : s.complete.code = 0#4 :=
  statusCompleted_code s.status

@[simp] theorem State.complete_err (s : State) : s.complete.err = s.err :=
  statusCompleted_err s.status

@[simp] theorem State.fail_code (c : Code) (s : State) : (s.fail c).code = codeBits c :=
  statusFailed_code c s.status

@[simp] theorem State.fail_err (c : Code) (s : State) : (s.fail c).err = true :=
  statusFailed_err c s.status

end Sys2Proof.Machine
end

