-- ==== Sys2Proof/Laws/Ops.lean ====
section
/-! SUPPORT. The byte view of the register window: what one byte write changes, and what wide reads and
writes do byte by byte (spec/45_control.md R182, spec/20_memory.md R51, R52, R57, R58). -/

namespace Sys2Proof.Machine

/-! Bytes of a word. -/

theorem byteOf_bit (w : Word64) (j i : Nat) :
    (byteOf w j).getLsbD i = (decide (i < 8) && w.getLsbD (8 * j + i)) := by
  simp [byteOf, BitVec.getLsbD_extractLsb']

theorem putByte_bit (w : Word64) (j : Nat) (x : Byte) (i : Nat) (hi : i < 64) :
    (putByte w j x).getLsbD i =
      if 8 * j ≤ i ∧ i < 8 * j + 8 then x.getLsbD (i - 8 * j) else w.getLsbD i := by
  have h255 : (0xFF#64).getLsbD (i - 8 * j) = decide (i - 8 * j < 8) := by
    have : (0xFF#64) = (BitVec.allOnes 8).setWidth 64 := by decide
    rw [this]
    simp only [BitVec.getLsbD_setWidth, BitVec.getLsbD_allOnes]
    by_cases h : i - 8 * j < 8
    · simp [h]; omega
    · simp [h]
  by_cases h1 : i < 8 * j
  · have h2 : ¬ (8 * j ≤ i ∧ i < 8 * j + 8) := by omega
    simp [putByte, h1, h2, hi]
  · by_cases h3 : i - 8 * j < 8
    · have h2 : 8 * j ≤ i ∧ i < 8 * j + 8 := by omega
      have h4 : i - 8 * j < 64 := by omega
      simp [putByte, h1, h2, hi, h255, h3]
    · have h2 : ¬ (8 * j ≤ i ∧ i < 8 * j + 8) := by omega
      have h5 : x.getLsbD (i - 8 * j) = false := BitVec.getLsbD_of_ge _ _ (by omega)
      rw [if_neg h2]
      simp only [putByte, BitVec.getLsbD_or, BitVec.getLsbD_and, BitVec.getLsbD_not,
        BitVec.getLsbD_shiftLeft, BitVec.getLsbD_setWidth, h255, h5]
      simp [h1, hi, h3]

/-- The byte written is the byte read. -/
theorem byteOf_putByte_same (w : Word64) (j : Nat) (x : Byte) (hj : j < 8) :
    byteOf (putByte w j x) j = x := by
  apply BitVec.eq_of_getLsbD_eq
  intro i hi
  rw [byteOf_bit, putByte_bit _ _ _ _ (by omega)]
  have h : 8 * j ≤ 8 * j + i ∧ 8 * j + i < 8 * j + 8 := by omega
  simp [hi, h]

/-- Every other byte is kept. -/
theorem byteOf_putByte_other (w : Word64) (j k : Nat) (x : Byte) (hk : k < 8) (h : j ≠ k) :
    byteOf (putByte w j x) k = byteOf w k := by
  apply BitVec.eq_of_getLsbD_eq
  intro i hi
  rw [byteOf_bit, byteOf_bit, putByte_bit _ _ _ _ (by omega)]
  have h2 : ¬ (8 * j ≤ 8 * k + i ∧ 8 * k + i < 8 * j + 8) := by omega
  simp [h2]

/-- A byte of a word as a number. -/
theorem byteOf_toNat (w : Word64) (j : Nat) :
    (byteOf w j).toNat = w.toNat / 2 ^ (8 * j) % 256 := by
  simp [byteOf, BitVec.extractLsb'_toNat, Nat.shiftRight_eq_div_pow]

/-- Bytes of a shifted word. -/
theorem byteOf_ushiftRight (w : Word64) (j : Nat) : byteOf (w >>> 8) j = byteOf w (j + 1) := by
  apply BitVec.eq_of_getLsbD_eq
  intro i hi
  rw [byteOf_bit, byteOf_bit, BitVec.getLsbD_ushiftRight]
  congr 2
  omega

/-! One byte write. -/

/-- Everything a byte write can do: one case for each writable register, and nothing elsewhere. -/
theorem wbyte_cases (s : State) (a : Nat) (x : Byte) :
    (∃ h : a < 0x10, wbyte s a x = { s with id := s.id.set a x }) ∨
    (0x10 ≤ a ∧ a < 0x18 ∧ wbyte s a x = { s with key0 := putByte s.key0 (a - 0x10) x }) ∨
    (0x18 ≤ a ∧ a < 0x20 ∧ wbyte s a x = { s with key1 := putByte s.key1 (a - 0x18) x }) ∨
    (0x20 ≤ a ∧ a < 0x28 ∧ wbyte s a x = { s with din := putByte s.din (a - 0x20) x }) ∨
    (a = 0x38 ∧ wbyte s a x = { s with status := statusWritten x s.status }) ∨
    (a = 0x39 ∧ wbyte s a x = { s with strlen := x }) ∨
    (∃ h : a - 0x40 < 36, 0x40 ≤ a ∧ wbyte s a x = { s with str := s.str.set (a - 0x40) x }) ∨
    (∃ h : a - 0x80 < 32, 0x80 ≤ a ∧ wbyte s a x = { s with msg := s.msg.set (a - 0x80) x }) ∨
    (((0x28 ≤ a ∧ a < 0x38) ∨ (0x3A ≤ a ∧ a < 0x40) ∨ (0x64 ≤ a ∧ a < 0x80) ∨ 0xA0 ≤ a) ∧
      wbyte s a x = s) := by
  unfold wbyte
  by_cases h1 : a < 0x10
  · exact .inl ⟨h1, dif_pos h1⟩
  refine .inr ?_
  rw [dif_neg h1]
  by_cases h2 : a < 0x18
  · exact .inl ⟨by omega, h2, if_pos h2⟩
  refine .inr ?_
  rw [if_neg h2]
  by_cases h3 : a < 0x20
  · exact .inl ⟨by omega, h3, if_pos h3⟩
  refine .inr ?_
  rw [if_neg h3]
  by_cases h4 : a < 0x28
  · exact .inl ⟨by omega, h4, if_pos h4⟩
  refine .inr ?_
  rw [if_neg h4]
  by_cases h5 : a < 0x38
  · rw [if_pos h5]
    exact .inr (.inr (.inr (.inr ⟨by omega, rfl⟩)))
  rw [if_neg h5]
  by_cases h6 : a = 0x38
  · exact .inl ⟨h6, if_pos h6⟩
  refine .inr ?_
  rw [if_neg h6]
  by_cases h7 : a = 0x39
  · exact .inl ⟨h7, if_pos h7⟩
  refine .inr ?_
  rw [if_neg h7]
  by_cases h8 : a < 0x40
  · rw [if_pos h8]
    exact .inr (.inr ⟨by omega, rfl⟩)
  rw [if_neg h8]
  by_cases h9 : a - 0x40 < 36
  · exact .inl ⟨h9, by omega, dif_pos h9⟩
  refine .inr ?_
  rw [dif_neg h9]
  by_cases h10 : a < 0x80
  · rw [if_pos h10]
    exact .inr ⟨by omega, rfl⟩
  rw [if_neg h10]
  by_cases h11 : a - 0x80 < 32
  · exact .inl ⟨h11, by omega, dif_pos h11⟩
  refine .inr ⟨by omega, dif_neg h11⟩

/-- A byte write changes no hidden register, no read-only register and no host field. -/
theorem wbyte_fields (s : State) (a : Nat) (x : Byte) :
    (wbyte s a x).digest = s.digest ∧ (wbyte s a x).res = s.res ∧ (wbyte s a x).slen = s.slen ∧
    (wbyte s a x).lanes = s.lanes ∧ (wbyte s a x).inReset = s.inReset ∧
    (wbyte s a x).inputs = s.inputs ∧ (wbyte s a x).rdata = s.rdata := by
  rcases wbyte_cases s a x with ⟨_, e⟩ | ⟨_, _, e⟩ | ⟨_, _, e⟩ | ⟨_, _, e⟩ | ⟨_, e⟩ | ⟨_, e⟩ |
    ⟨_, _, e⟩ | ⟨_, _, e⟩ | ⟨_, e⟩ <;> rw [e] <;> exact ⟨rfl, rfl, rfl, rfl, rfl, rfl, rfl⟩

@[simp] theorem wbyte_digest (s : State) (a : Nat) (x : Byte) :
    (wbyte s a x).digest = s.digest := (wbyte_fields s a x).1

@[simp] theorem wbyte_res (s : State) (a : Nat) (x : Byte) :
    (wbyte s a x).res = s.res := (wbyte_fields s a x).2.1

@[simp] theorem wbyte_slen (s : State) (a : Nat) (x : Byte) :
    (wbyte s a x).slen = s.slen := (wbyte_fields s a x).2.2.1

@[simp] theorem wbyte_lanes (s : State) (a : Nat) (x : Byte) :
    (wbyte s a x).lanes = s.lanes := (wbyte_fields s a x).2.2.2.1

@[simp] theorem wbyte_inReset (s : State) (a : Nat) (x : Byte) :
    (wbyte s a x).inReset = s.inReset := (wbyte_fields s a x).2.2.2.2.1

@[simp] theorem wbyte_inputs (s : State) (a : Nat) (x : Byte) :
    (wbyte s a x).inputs = s.inputs := (wbyte_fields s a x).2.2.2.2.2.1

@[simp] theorem wbyte_rdata (s : State) (a : Nat) (x : Byte) :
    (wbyte s a x).rdata = s.rdata := (wbyte_fields s a x).2.2.2.2.2.2

/-- STATUS after a byte write: written at 0x38, kept elsewhere. -/
theorem wbyte_status (s : State) (a : Nat) (x : Byte) :
    (wbyte s a x).status = if a = 0x38 then statusWritten x s.status else s.status := by
  rcases wbyte_cases s a x with ⟨_, e⟩ | ⟨_, _, e⟩ | ⟨_, _, e⟩ | ⟨_, _, e⟩ | ⟨_, e⟩ | ⟨_, e⟩ |
    ⟨_, _, e⟩ | ⟨_, _, e⟩ | ⟨_, e⟩ <;> rw [e] <;> split <;> first | rfl | omega

/-- The read at an offset depends on the register behind it alone. -/
theorem rbyte_congr (s t : State) (b : Nat)
    (h0 : ∀ h : b < 0x10, t.id[b] = s.id[b])
    (h1 : 0x20 ≤ b → b < 0x28 → byteOf t.din (b - 0x20) = byteOf s.din (b - 0x20))
    (h2 : 0x28 ≤ b → b < 0x30 → byteOf t.digest (b - 0x28) = byteOf s.digest (b - 0x28))
    (h3 : 0x30 ≤ b → b < 0x38 → byteOf t.res (b - 0x30) = byteOf s.res (b - 0x30))
    (h4 : b = 0x38 → statusRead t.status = statusRead s.status)
    (h5 : b = 0x39 → t.strlen = s.strlen) (h6 : b = 0x3A → t.slen = s.slen)
    (h7 : ∀ h : b - 0x40 < 36, 0x40 ≤ b → t.str[b - 0x40] = s.str[b - 0x40])
    (h8 : ∀ h : b - 0x80 < 32, 0x80 ≤ b → t.msg[b - 0x80] = s.msg[b - 0x80]) :
    rbyte t b = rbyte s b := by
  unfold rbyte
  repeat' apply dite_congr rfl <;> intro
  all_goals simp_all

/-- A byte write at `a` changes the read of no other byte. -/
theorem rbyte_wbyte_other (s : State) (a b : Nat) (x : Byte) (h : a ≠ b) :
    rbyte (wbyte s a x) b = rbyte s b := by
  apply rbyte_congr
  all_goals rcases wbyte_cases s a x with ⟨_, e⟩ | ⟨_, _, e⟩ | ⟨_, _, e⟩ | ⟨_, _, e⟩ | ⟨_, e⟩ |
    ⟨_, e⟩ | ⟨_, _, e⟩ | ⟨_, _, e⟩ | ⟨_, e⟩
  all_goals rw [e]
  all_goals intros
  all_goals first
    | rfl
    | omega
    | (dsimp only; rw [Vector.getElem_set_ne]; omega)
    | (apply byteOf_putByte_other <;> omega)

/-- A byte write at `a` changes KEY0 in that byte alone. -/
theorem key0_wbyte (s : State) (a j : Nat) (x : Byte) (hj : j < 8) :
    byteOf (wbyte s a x).key0 j = if a = 0x10 + j then x else byteOf s.key0 j := by
  rcases wbyte_cases s a x with ⟨_, e⟩ | ⟨_, _, e⟩ | ⟨_, _, e⟩ | ⟨_, _, e⟩ | ⟨_, e⟩ | ⟨_, e⟩ |
    ⟨_, _, e⟩ | ⟨_, _, e⟩ | ⟨_, e⟩
  all_goals rw [e]
  all_goals split
  all_goals first
    | rfl
    | omega
    | (subst_vars; simp only [Nat.add_sub_cancel_left]; exact byteOf_putByte_same _ _ _ hj)
    | (apply byteOf_putByte_other <;> omega)

/-- A byte write at `a` changes KEY1 in that byte alone. -/
theorem key1_wbyte (s : State) (a j : Nat) (x : Byte) (hj : j < 8) :
    byteOf (wbyte s a x).key1 j = if a = 0x18 + j then x else byteOf s.key1 j := by
  rcases wbyte_cases s a x with ⟨_, e⟩ | ⟨_, _, e⟩ | ⟨_, _, e⟩ | ⟨_, _, e⟩ | ⟨_, e⟩ | ⟨_, e⟩ |
    ⟨_, _, e⟩ | ⟨_, _, e⟩ | ⟨_, e⟩
  all_goals rw [e]
  all_goals split
  all_goals first
    | rfl
    | omega
    | (subst_vars; simp only [Nat.add_sub_cancel_left]; exact byteOf_putByte_same _ _ _ hj)
    | (apply byteOf_putByte_other <;> omega)

/-! What each offset reads. -/

theorem rbyte_id (s : State) (j : Nat) (h : j < 16) : rbyte s j = s.id[j] := dif_pos h

theorem rbyte_key (s : State) (a : Nat) (h1 : 0x10 ≤ a) (h2 : a < 0x20) : rbyte s a = 0#8 := by
  simp [rbyte, show ¬ a < 16 by omega, h2]

theorem rbyte_din (s : State) (j : Nat) (h : j < 8) : rbyte s (0x20 + j) = byteOf s.din j := by
  simp [rbyte, show ¬ 32 + j < 16 by omega, show 32 + j < 40 by omega]

theorem rbyte_digest (s : State) (j : Nat) (h : j < 8) :
    rbyte s (0x28 + j) = byteOf s.digest j := by
  simp [rbyte, show ¬ 40 + j < 16 by omega, show ¬ 40 + j < 32 by omega,
    show 40 + j < 48 by omega]

theorem rbyte_res (s : State) (j : Nat) (h : j < 8) : rbyte s (0x30 + j) = byteOf s.res j := by
  simp [rbyte, show ¬ 48 + j < 16 by omega, show ¬ 48 + j < 32 by omega,
    show ¬ 48 + j < 40 by omega, show 48 + j < 56 by omega]

@[simp] theorem rbyte_status (s : State) : rbyte s 0x38 = statusRead s.status := rfl

@[simp] theorem rbyte_strlen (s : State) : rbyte s 0x39 = s.strlen := rfl

@[simp] theorem rbyte_slen (s : State) : rbyte s 0x3A = s.slen := rfl

/-- The upper part of the window: STR, MSG and the reserved bytes about them. -/
theorem rbyte_upper (s : State) (a : Nat) (h : 0x40 ≤ a) :
    rbyte s a =
      if h : a - 0x40 < 36 then s.str[a - 0x40]
      else if a < 0x80 then 0#8
      else if h : a - 0x80 < 32 then s.msg[a - 0x80]
      else 0#8 := by
  rw [rbyte, dif_neg (by omega)]
  iterate 8 rw [if_neg (by omega)]

theorem rbyte_str (s : State) (j : Nat) (h : j < 36) : rbyte s (0x40 + j) = s.str[j] := by
  rw [rbyte_upper _ _ (by omega), dif_pos (by omega)]
  simp only [Nat.add_sub_cancel_left]

theorem rbyte_msg (s : State) (j : Nat) (h : j < 32) : rbyte s (0x80 + j) = s.msg[j] := by
  rw [rbyte_upper _ _ (by omega), dif_neg (by omega), if_neg (by omega), dif_pos (by omega)]
  simp only [Nat.add_sub_cancel_left]

/-- Reserved bytes and CMD read 0. -/
theorem rbyte_reserved (s : State) (a : Nat)
    (h : (0x3B ≤ a ∧ a < 0x40) ∨ (0x64 ≤ a ∧ a < 0x80) ∨ 0xA0 ≤ a) : rbyte s a = 0#8 := by
  by_cases low : a < 0x40
  · rw [rbyte, dif_neg (by omega)]
    iterate 7 rw [if_neg (by omega)]
    rw [if_pos low]
  · rw [rbyte_upper _ _ (by omega), dif_neg (by omega)]
    split
    · rfl
    · rw [dif_neg (by omega)]

/-- A readable, writable byte reads back as written: ID, DIN, STRLEN, STR, MSG. -/
theorem rbyte_wbyte_same (s : State) (a : Nat) (x : Byte)
    (h : a < 0x10 ∨ (0x20 ≤ a ∧ a < 0x28) ∨ a = 0x39 ∨ (0x40 ≤ a ∧ a < 0x64) ∨
      (0x80 ≤ a ∧ a < 0xA0)) :
    rbyte (wbyte s a x) a = x := by
  rcases wbyte_cases s a x with ⟨_, e⟩ | ⟨_, _, e⟩ | ⟨_, _, e⟩ | ⟨_, _, e⟩ | ⟨_, e⟩ | ⟨_, e⟩ |
    ⟨_, _, e⟩ | ⟨_, _, e⟩ | ⟨_, e⟩
  all_goals first | omega | rw [e]
  · rw [rbyte_id _ _ (by omega)]
    exact Vector.getElem_set_self _
  · obtain ⟨j, rfl⟩ := Nat.exists_eq_add_of_le (show 0x20 ≤ a by omega)
    rw [rbyte_din _ _ (by omega)]
    simp only [Nat.add_sub_cancel_left]
    exact byteOf_putByte_same _ _ _ (by omega)
  · subst_vars
    rfl
  · obtain ⟨j, rfl⟩ := Nat.exists_eq_add_of_le (show 0x40 ≤ a by omega)
    rw [rbyte_str _ _ (by omega)]
    simp
  · obtain ⟨j, rfl⟩ := Nat.exists_eq_add_of_le (show 0x80 ≤ a by omega)
    rw [rbyte_msg _ _ (by omega)]
    simp

/-- STATUS after a byte write reads with ERR cleared or kept. -/
theorem rbyte_wbyte_status (s : State) (x : Byte) :
    rbyte (wbyte s 0x38 x) 0x38 = statusRead (statusWritten x s.status) := rfl

/-- A write at a read-only, reserved or CMD byte does nothing. -/
theorem wbyte_ignored (s : State) (a : Nat) (x : Byte)
    (h : (0x28 ≤ a ∧ a < 0x38) ∨ (0x3A ≤ a ∧ a < 0x40) ∨ (0x64 ≤ a ∧ a < 0x80) ∨ 0xA0 ≤ a) :
    wbyte s a x = s := by
  rcases wbyte_cases s a x with ⟨_, e⟩ | ⟨_, _, e⟩ | ⟨_, _, e⟩ | ⟨_, _, e⟩ | ⟨_, e⟩ | ⟨_, e⟩ |
    ⟨_, _, e⟩ | ⟨_, _, e⟩ | ⟨_, e⟩
  all_goals first | exact e | omega

/-! Wide accesses. -/

/-- A wide write changes no hidden register, no read-only register and no host field. -/
theorem memWrite_fields (n : Nat) : ∀ (s : State) (a : Nat) (v : Word64),
    (memWrite s a v n).digest = s.digest ∧ (memWrite s a v n).res = s.res ∧
    (memWrite s a v n).slen = s.slen ∧ (memWrite s a v n).lanes = s.lanes ∧
    (memWrite s a v n).inReset = s.inReset ∧ (memWrite s a v n).inputs = s.inputs ∧
    (memWrite s a v n).rdata = s.rdata := by
  induction n with
  | zero => exact fun _ _ _ => ⟨rfl, rfl, rfl, rfl, rfl, rfl, rfl⟩
  | succ n ih =>
    intro s a v
    simpa [memWrite] using ih (wbyte s a (byteOf v 0)) (a + 1) (v >>> 8)

/-- A wide write in one equation: only writable registers and STATUS differ. -/
theorem memWrite_frame {s t : State} {a n : Nat} {v : Word64} (h : t = memWrite s a v n) :
    t = { s with id := t.id, key0 := t.key0, key1 := t.key1, din := t.din, status := t.status,
                 strlen := t.strlen, str := t.str, msg := t.msg } := by
  have f := memWrite_fields n s a v
  rw [← h] at f
  obtain ⟨h1, h2, h3, h4, h5, h6, h7⟩ := f
  cases t
  simp only at h1 h2 h3 h4 h5 h6 h7
  subst h1 h2 h3 h4 h5 h6 h7
  rfl

/-- Of STATUS a wide write changes no bit but ERR. -/
theorem memWrite_status (n : Nat) : ∀ (s : State) (a : Nat) (v : Word64),
    (memWrite s a v n).status &&& 0x7F#8 = s.status &&& 0x7F#8 := by
  induction n with
  | zero => exact fun _ _ _ => rfl
  | succ n ih =>
    intro s a v
    rw [memWrite, ih, wbyte_status]
    split <;> simp

/-- A wide write changes the read of no byte outside those it covers. -/
theorem rbyte_memWrite_other (n : Nat) : ∀ (s : State) (a : Nat) (v : Word64) (b : Nat),
    (b < a ∨ a + n ≤ b) → rbyte (memWrite s a v n) b = rbyte s b := by
  induction n with
  | zero => intros; rfl
  | succ n ih =>
    intro s a v b h
    rw [memWrite, ih _ _ _ _ (by omega), rbyte_wbyte_other _ _ _ _ (by omega)]

/-- Byte `j` of a wide read is the window byte `j` places on, and the bytes above are zero. -/
theorem byteOf_memRead (s : State) (n : Nat) : ∀ (a j : Nat), n ≤ 8 → j < 8 →
    byteOf (memRead s a n) j = if j < n then rbyte s (a + j) else 0#8 := by
  induction n with
  | zero => intro a j _ _; simp [memRead, byteOf]
  | succ n ih =>
    intro a j hn hj
    apply BitVec.eq_of_getLsbD_eq
    intro i hi
    rw [byteOf_bit, memRead, BitVec.getLsbD_or, BitVec.getLsbD_setWidth, BitVec.getLsbD_shiftLeft]
    cases j with
    | zero =>
      have h1 : i < 64 := by omega
      simp [hi, h1]
    | succ k =>
      have h := congrArg (fun b => b.getLsbD i) (ih (a + 1) k (by omega) (by omega))
      simp only [byteOf_bit] at h
      have e1 : 8 * (k + 1) + i - 8 = 8 * k + i := by omega
      have e2 : ¬ (8 * (k + 1) + i < 8) := by omega
      have e3 : 8 * (k + 1) + i < 64 := by omega
      have e4 : (rbyte s a).getLsbD (8 * (k + 1) + i) = false :=
        BitVec.getLsbD_of_ge _ _ (by omega)
      have e5 : a + (k + 1) = a + 1 + k := by omega
      simp only [hi, decide_true, Bool.true_and] at h
      simp [hi, e1, e2, e3, e4, h, e5]

end Sys2Proof.Machine
end

