-- ==== Sys2Proof/Laws/Exec.lean ====
section
/-! SUPPORT. What the shared operations behind exec can answer: a command's end, the issue of a word,
wide reads and writes, and what every instruction keeps (spec/60_exceptions.md R202 to R204). -/

namespace Sys2Proof.Machine

/-- The meaning a command has when issued is its own meaning. -/
theorem runCommand_eq_exec {i : Instr} (h : i.isCommand = true) (s : State) :
    runCommand i s = exec i s := by
  cases i <;> first | rfl | simp [Instr.isCommand] at h

/-- The issue of a legal word is the meaning of its command. -/
theorem issue_ok {w : BitVec 32} {i : Instr} (h : decodeCommand w = .ok i) (s : State) :
    issue w s = exec i s := by
  rw [issue, h]
  exact runCommand_eq_exec (Laws.decodeCommand_isCommand h) s

/-- The issue of an illegal word fails with IllegalCommand. -/
theorem issue_error {w : BitVec 32} {e : Illegal} (h : decodeCommand w = .error e) (s : State) :
    issue w s = .next (s.fail .illegalCommand) := by
  rw [issue, h]

/-- Everything a command can do: it completes after writes that keep STATUS and the host's side, or
fails with a code that is not OK. -/
theorem exec_command_cases {i : Instr} (h : i.isCommand = true) (s : State) :
    (∃ u : State, exec i s = .next u.complete ∧ u.status = s.status ∧ u.key0 = s.key0 ∧
      u.key1 = s.key1 ∧ u.din = s.din ∧ u.msg = s.msg ∧ u.inReset = s.inReset ∧
      u.inputs = s.inputs ∧ u.rdata = s.rdata) ∨
    (∃ c : Code, c ≠ .ok ∧ exec i s = .next (s.fail c)) := by
  cases i
  case siphash len =>
    simp only [exec, execSiphash]
    split
    · exact .inr ⟨_, by decide, rfl⟩
    · exact .inl ⟨_, rfl, rfl, rfl, rfl, rfl, rfl, rfl, rfl, rfl⟩
  case validate =>
    simp only [exec, execValidate, checkId]
    split
    · rename_i c hc
      refine .inr ⟨c, ?_, rfl⟩
      rintro rfl
      repeat' split at hc
      all_goals contradiction
    · exact .inl ⟨_, rfl, rfl, rfl, rfl, rfl, rfl, rfl, rfl, rfl⟩
  case parse =>
    simp only [exec, execParse, scan, checkId]
    repeat' split
    all_goals first
      | exact .inl ⟨_, rfl, rfl, rfl, rfl, rfl, rfl, rfl, rfl, rfl⟩
      | skip
    all_goals
      rename_i c hc
      refine .inr ⟨c, ?_, rfl⟩
      rintro rfl
      repeat' split at hc
      all_goals contradiction
  case parseraw =>
    simp only [exec, execParseraw, scan]
    repeat' split
    all_goals first
      | exact .inl ⟨_, rfl, rfl, rfl, rfl, rfl, rfl, rfl, rfl, rfl⟩
      | skip
    all_goals
      rename_i c hc
      refine .inr ⟨c, ?_, rfl⟩
      rintro rfl
      repeat' split at hc
      all_goals contradiction
  case lb => simp [Instr.isCommand] at h
  case lh => simp [Instr.isCommand] at h
  case lw => simp [Instr.isCommand] at h
  case ld => simp [Instr.isCommand] at h
  case sb => simp [Instr.isCommand] at h
  case sh => simp [Instr.isCommand] at h
  case sw => simp [Instr.isCommand] at h
  case sd => simp [Instr.isCommand] at h
  all_goals exact .inl ⟨_, rfl, rfl, rfl, rfl, rfl, rfl, rfl, rfl, rfl⟩

/-- Everything a read can do. -/
theorem readWindow_cases (off : Byte) (n : Nat) (s : State) :
    (off.toNat % n = 0 ∧ readWindow off n s = .next (s.respond (memRead s off.toNat n))) ∨
    (off.toNat % n ≠ 0 ∧ readWindow off n s = .fault .busError) := by
  unfold readWindow aligned
  by_cases h : off.toNat % n = 0 <;> simp [h]

/-- Everything a write that issues nothing can do. -/
theorem writeWindow_cases (off : Byte) (n : Nat) (v : Word64) (s : State) :
    (off.toNat % n = 0 ∧ writeWindow off n v s = .next (memWrite s off.toNat v n)) ∨
    (off.toNat % n ≠ 0 ∧ writeWindow off n v s = .fault .busError) := by
  unfold writeWindow aligned
  by_cases h : off.toNat % n = 0 <;> simp [h]

/-- No instruction touches the reset input or the inputs still to come. -/
theorem exec_keeps_inputs {i : Instr} {s t : State} (h : exec i s = .next t) :
    t.inReset = s.inReset ∧ t.inputs = s.inputs := by
  have command : ∀ {j : Instr}, j.isCommand = true → exec j s = .next t →
      t.inReset = s.inReset ∧ t.inputs = s.inputs := by
    intro j hj hx
    rcases exec_command_cases hj s with ⟨u, e, -, -, -, -, -, h1, h2, -⟩ | ⟨c, -, e⟩ <;>
      (rw [e] at hx; injection hx with hx; subst hx)
    · exact ⟨h1, h2⟩
    · exact ⟨rfl, rfl⟩
  have load : ∀ off n, readWindow off n s = .next t → t.inReset = s.inReset ∧ t.inputs = s.inputs := by
    intro off n hx
    rcases readWindow_cases off n s with ⟨-, e⟩ | ⟨-, e⟩ <;> rw [e] at hx
    · injection hx with hx; subst hx; exact ⟨rfl, rfl⟩
    · contradiction
  have store : ∀ off n v, writeWindow off n v s = .next t →
      t.inReset = s.inReset ∧ t.inputs = s.inputs := by
    intro off n v hx
    rcases writeWindow_cases off n v s with ⟨-, e⟩ | ⟨-, e⟩ <;> rw [e] at hx
    · injection hx with hx; subst hx
      exact ⟨(memWrite_fields _ _ _ _).2.2.2.2.1, (memWrite_fields _ _ _ _).2.2.2.2.2.1⟩
    · contradiction
  cases i
  case lb off => exact load off 1 h
  case lh off => exact load off 2 h
  case lw off => exact load off 4 h
  case ld off => exact load off 8 h
  case sb off v => exact store off 1 _ h
  case sh off v => exact store off 2 _ h
  case sd off v => exact store off 8 _ h
  case sw off v =>
    simp only [exec, execSw] at h
    split at h
    · cases hd : decodeCommand v with
      | error e =>
        rw [issue_error hd] at h
        injection h with h; subst h; exact ⟨rfl, rfl⟩
      | ok j =>
        rw [issue_ok hd] at h
        exact command (Laws.decodeCommand_isCommand hd) h
    · exact store off 4 _ h
  all_goals exact command rfl h

end Sys2Proof.Machine
end

