-- ==== Sys2Proof/Laws/Inputs.lean ====
section
/-! SUPPORT. What `takeReset` finds among the inputs: the first level of the reset input, and every
access left in its place (spec/70_reset_and_hazards.md R230). -/

namespace Sys2Proof.Machine

/-- The first level found lies behind the accesses before it. -/
theorem takeReset_pre (pre post : List Input) (b : Bool)
    (h : ∀ i ∈ pre, Input.isAccess i = true) :
    takeReset (pre ++ .resetLine b :: post) = some (b, pre ++ post) := by
  induction pre with
  | nil => rfl
  | cons a pre ih =>
    cases a with
    | access r => simp [takeReset, ih (fun i hi => h i (by simp [hi]))]
    | resetLine c => simpa [Input.isAccess] using h (.resetLine c) (by simp)

/-- Accesses alone hold no level. -/
theorem takeReset_accesses (pre : List Input) (h : ∀ i ∈ pre, Input.isAccess i = true) :
    takeReset pre = none := by
  induction pre with
  | nil => rfl
  | cons a pre ih =>
    cases a with
    | access r => simp [takeReset, ih (fun i hi => h i (by simp [hi]))]
    | resetLine c => simpa [Input.isAccess] using h (.resetLine c) (by simp)

/-- Everything `takeReset` can do when it finds a level: one input less, every access kept, in order,
and the same level of the reset input at the end. -/
theorem takeReset_some {is : List Input} : ∀ {b : Bool} {o : List Input},
    takeReset is = some (b, o) →
    o.length + 1 = is.length ∧ o.filter Input.isAccess = is.filter Input.isAccess ∧
    (∀ r, Input.access r ∈ o → Input.access r ∈ is) ∧
    ∀ level, finalLevel b o = finalLevel level is := by
  induction is with
  | nil => intro b o h; simp [takeReset] at h
  | cons x xs ih =>
    intro b o h
    cases x with
    | access r =>
      simp only [takeReset] at h
      split at h
      · rename_i b' o' h'
        simp only [Option.some.injEq, Prod.mk.injEq] at h
        obtain ⟨rfl, rfl⟩ := h
        obtain ⟨i1, i2, i3, i4⟩ := ih h'
        refine ⟨by simp [i1], by simp [List.filter, Input.isAccess, i2], ?_, i4⟩
        intro q hq
        rcases List.mem_cons.1 hq with hq | hq
        · exact List.mem_cons.2 (.inl hq)
        · exact List.mem_cons_of_mem _ (i3 q hq)
      · contradiction
    | resetLine a =>
      simp only [takeReset, Option.some.injEq, Prod.mk.injEq] at h
      obtain ⟨rfl, rfl⟩ := h
      exact ⟨rfl, rfl, fun _ h => List.mem_cons_of_mem _ h, fun _ => rfl⟩

/-- Where `takeReset` finds no level, the level stays. -/
theorem takeReset_none {is : List Input} : takeReset is = none → ∀ level, finalLevel level is = level := by
  induction is with
  | nil => exact fun _ _ => rfl
  | cons x xs ih =>
    intro h level
    cases x with
    | access r =>
      simp only [takeReset] at h
      split at h
      · contradiction
      · exact ih ‹_› level
    | resetLine a => simp [takeReset] at h

end Sys2Proof.Machine
end

