-- ==== Sys2Proof/Laws/Operands.lean ====
section
/-! SUPPORT. The operand forms in Nat arithmetic: the fields of an identifier, SIPFIN's tail and the
final block, bytes of a word, and hex digits. -/

namespace Sys2Proof.Machine

/-- A word is its eight bytes. -/
theorem word_ext_bytes {v w : Word64} (h : ∀ j, j < 8 → byteOf v j = byteOf w j) : v = w := by
  apply BitVec.eq_of_getLsbD_eq
  intro i hi
  have hb := congrArg (fun b => b.getLsbD (i % 8)) (h (i / 8) (by omega))
  simp only [byteOf_bit] at hb
  have e : 8 * (i / 8) + i % 8 = i := by omega
  have e2 : i % 8 < 8 := by omega
  simpa [e, e2] using hb

/-- Writing a byte twice is writing it once. -/
theorem putByte_idem (w : Word64) (j : Nat) (x : Byte) :
    putByte (putByte w j x) j x = putByte w j x := by
  apply BitVec.eq_of_getLsbD_eq
  intro i hi
  rw [putByte_bit _ _ _ _ hi, putByte_bit _ _ _ _ hi]
  split <;> rfl

/-- Writes of two different bytes commute. -/
theorem putByte_comm (w : Word64) (j k : Nat) (x y : Byte) (h : j ≠ k) :
    putByte (putByte w j x) k y = putByte (putByte w k y) j x := by
  apply BitVec.eq_of_getLsbD_eq
  intro i hi
  rw [putByte_bit _ _ _ _ hi, putByte_bit _ _ _ _ hi, putByte_bit _ _ _ _ hi,
    putByte_bit _ _ _ _ hi]
  split <;> split <;> first | rfl | omega

/-- A byte write repeated changes nothing more. -/
theorem wbyte_idem (s : State) (a : Nat) (x : Byte) : wbyte (wbyte s a x) a x = wbyte s a x := by
  have status : ∀ st : Byte, statusWritten x (statusWritten x st) = statusWritten x st := by
    intro st
    revert st
    unfold statusWritten
    split <;> decide
  rcases wbyte_cases s a x with ⟨h, e⟩ | ⟨h, h', e⟩ | ⟨h, h', e⟩ | ⟨h, h', e⟩ | ⟨h, e⟩ | ⟨h, e⟩ |
    ⟨h, h', e⟩ | ⟨h, h', e⟩ | ⟨h, e⟩ <;>
  generalize hs : wbyte s a x = t at e ⊢ <;>
  rcases wbyte_cases t a x with ⟨g, f⟩ | ⟨g, g', f⟩ | ⟨g, g', f⟩ | ⟨g, g', f⟩ | ⟨g, f⟩ | ⟨g, f⟩ |
    ⟨g, g', f⟩ | ⟨g, g', f⟩ | ⟨g, f⟩ <;> first
    | omega
    | exact f
    | (rw [f, e] <;> simp [putByte_idem, status])

/-- A byte of a word above a shifted word, as numbers. -/
theorem or_shift_toNat (b : Byte) (v : Word64) (h : v.toNat < 2 ^ 56) :
    (b.setWidth 64 ||| (v <<< 8)).toNat = b.toNat + v.toNat * 256 := by
  have e : (b.setWidth 64 : Word64) ||| (v <<< 8) = b.setWidth 64 + (v <<< 8) := by
    symm
    apply BitVec.add_eq_or_of_and_eq_zero
    apply BitVec.eq_of_getLsbD_eq
    intro i hi
    simp only [BitVec.getLsbD_and, BitVec.getLsbD_setWidth, BitVec.getLsbD_shiftLeft,
      BitVec.getLsbD_zero]
    by_cases hh : i < 8
    · simp [hh]
    · simp [BitVec.getLsbD_of_ge b i (by omega)]
  rw [e, BitVec.toNat_add, BitVec.toNat_shiftLeft, BitVec.toNat_setWidth, Nat.shiftLeft_eq]
  have := b.isLt
  omega

/-- The bytes of a list fit its length. -/
theorem le64_lt (l : List Byte) : l.length ≤ 8 → (le64 l).toNat < 2 ^ (8 * l.length) := by
  induction l with
  | nil => intro _; simp [le64]
  | cons b bs ih =>
    intro hl
    simp only [List.length_cons] at hl ⊢
    have hb := ih (by omega)
    have hp : 2 ^ (8 * bs.length) ≤ 2 ^ 56 := Nat.pow_le_pow_right (by decide) (by omega)
    rw [le64, or_shift_toNat _ _ (by omega), show 8 * (bs.length + 1) = 8 * bs.length + 8 by ring,
      pow_add]
    have := b.isLt
    omega

/-- SIPFIN's tail keeps the low `8n` bits. -/
theorem tailOf_toNat (d : Word64) (n : Nat) (h : n < 8) :
    (tailOf d n).toNat = d.toNat % 2 ^ (8 * n) := by
  unfold tailOf
  rw [BitVec.toNat_and, BitVec.toNat_ofNat]
  have : 2 ^ (8 * n) ≤ 2 ^ 56 := Nat.pow_le_pow_right (by decide) (by omega)
  rw [Nat.mod_eq_of_lt (by omega), Nat.and_two_pow_sub_one_eq_mod]

/-- The final block is the length byte above a tail of at most seven bytes. -/
theorem finalBlock_eq (l : Byte) (t : Word64) (ht : t.toNat < 2 ^ 56) :
    finalBlock l t = BitVec.ofNat 64 (l.toNat * 2 ^ 56 + t.toNat) := by
  unfold finalBlock
  apply BitVec.eq_of_toNat_eq
  rw [BitVec.toNat_or, BitVec.toNat_shiftLeft, BitVec.toNat_setWidth, BitVec.toNat_ofNat]
  have := l.isLt
  rw [Nat.mod_eq_of_lt (show l.toNat < 2 ^ 64 by omega), Nat.shiftLeft_eq,
    Nat.mod_eq_of_lt (show l.toNat * 2 ^ 56 < 2 ^ 64 by omega), Nat.mod_eq_of_lt (by omega),
    ← Nat.shiftLeft_eq, Nat.shiftLeft_add_eq_or_of_lt ht]

/-- The version nibble, by division. -/
theorem versionOf_toNat (id : Identifier) : (versionOf id).toNat = id[6].toNat / 16 := by
  unfold versionOf
  generalize id[6] = b
  revert b
  decide

/-- The variant bits, by division. -/
theorem variantOf_toNat (id : Identifier) : (variantOf id).toNat = id[8].toNat / 64 := by
  unfold variantOf
  generalize id[8] = b
  revert b
  decide

/-- The byte SETVER writes: its nibbles, and the byte itself when it has the version already. -/
theorem versionByte (v : BitVec 4) (b : Byte) :
    ((v.setWidth 8 <<< 4) ||| (b &&& 0x0F#8)).toNat / 16 = v.toNat ∧
    ((v.setWidth 8 <<< 4) ||| (b &&& 0x0F#8)).toNat % 16 = b.toNat % 16 ∧
    (b.toNat / 16 = v.toNat → ((v.setWidth 8 <<< 4) ||| (b &&& 0x0F#8)) = b) := by
  revert v b
  decide +kernel

/-- The byte SETVAR writes: its fields, and the byte itself when it has the variant already. -/
theorem variantByte (b : Byte) :
    (0x80#8 ||| (b &&& 0x3F#8)).toNat / 64 = 2 ∧
    (0x80#8 ||| (b &&& 0x3F#8)).toNat % 64 = b.toNat % 64 ∧
    (b.toNat / 64 = 2 → (0x80#8 ||| (b &&& 0x3F#8)) = b) := by
  revert b
  decide +kernel

/-- The hex digit written for a nibble reads back as that nibble. -/
theorem hexval_hexchar (x : BitVec 4) : hexval (hexchar x) = some x := by
  revert x
  decide

end Sys2Proof.Machine
end

