-- ==== Sys2Proof/Laws/PerInstr.lean ====
section
/-! SUPPORT. For every instruction: the word the encoder writes lies in the instruction's own row of
the opcode map, `word & mask = match` (spec/30_encoding.md R87). -/

namespace Sys2Proof.Laws.TableRow

/-- The encoded word of an encodable instruction matches the instruction's row. -/
def Statement (i : Instr) : Prop :=
  i.wellFormed = true → (Sys2Proof.encode i).tableBits &&& i.row.mask = i.row.pattern

/-- The header of a request under the mask 0x700 is its WE and SIZE bits. -/
theorem busHeader_row (we : Bool) (size : BitVec 2) (off : Byte) :
    (busHeader we size off).toNat &&& 0x700 = (we.toNat * 4 + size.toNat) * 256 := by
  revert off size
  cases we <;> decide

theorem nop : Statement .nop := fun _ => by decide

theorem sipinit : Statement .sipinit := fun _ => by decide

theorem sipblk : Statement .sipblk := fun _ => by decide

theorem getver : Statement .getver := fun _ => by decide

theorem setvar : Statement .setvar := fun _ => by decide

theorem validate : Statement .validate := fun _ => by decide

theorem newid : Statement .newid := fun _ => by decide

theorem parse : Statement .parse := fun _ => by decide

theorem parseraw : Statement .parseraw := fun _ => by decide

theorem format : Statement .format := fun _ => by decide

theorem mask : Statement .mask := fun _ => by decide

theorem encode : Statement .encode := fun _ => by decide

theorem decode : Statement .decode := fun _ => by decide

theorem sipfin (n : Nat) : Statement (.sipfin n) := by
  intro h
  have hn : n < 8 := of_decide_eq_true h
  clear h
  revert n
  decide

/-- SIPHASH's row leaves every operand byte free. -/
theorem siphash_row (imm : Byte) :
    (commandWord 0x13#8 imm).toNat &&& 0xFFFF00FF = 0x00000013 := by
  revert imm
  decide

theorem siphash (len : Nat) : Statement (.siphash len) := fun _ => siphash_row (BitVec.ofNat 8 len)

theorem setver (v : BitVec 4) : Statement (.setver v) := by
  intro _
  revert v
  decide

theorem lb (off : Byte) : Statement (.lb off) := fun _ => busHeader_row false 0#2 off

theorem lh (off : Byte) : Statement (.lh off) := fun _ => busHeader_row false 1#2 off

theorem lw (off : Byte) : Statement (.lw off) := fun _ => busHeader_row false 2#2 off

theorem ld (off : Byte) : Statement (.ld off) := fun _ => busHeader_row false 3#2 off

theorem sb (off : Byte) (v : BitVec 8) : Statement (.sb off v) :=
  fun _ => busHeader_row true 0#2 off

theorem sh (off : Byte) (v : BitVec 16) : Statement (.sh off v) :=
  fun _ => busHeader_row true 1#2 off

theorem sw (off : Byte) (v : BitVec 32) : Statement (.sw off v) :=
  fun _ => busHeader_row true 2#2 off

theorem sd (off : Byte) (v : BitVec 64) : Statement (.sd off v) :=
  fun _ => busHeader_row true 3#2 off

end Sys2Proof.Laws.TableRow
end

