-- ==== Sys2Proof/Laws/Run.lean ====
section
/-! SUPPORT. What several steps of the core do: no step, a first step that answers, and two runs in a
row. -/

namespace Sys2Proof.Machine

/-- No step leaves the state. -/
@[simp] theorem run_zero (s : State) : Host.Core.run core 0 s = .next s := rfl

/-- A run whose first step answers goes on from its answer. -/
theorem run_succ_of_step {s t : State} (h : step s = .next t) (n : Nat) :
    Host.Core.run core (n + 1) s = Host.Core.run core n t := by
  simp only [Host.Core.run, show core.step s = .next t from h]

/-- A run that answers can be continued. -/
theorem run_add {m : Nat} : ∀ {s t : State}, Host.Core.run core m s = .next t → ∀ n,
    Host.Core.run core (m + n) s = Host.Core.run core n t := by
  induction m with
  | zero =>
    intro s t h n
    cases h
    rw [Nat.zero_add]
  | succ m ih =>
    intro s t h n
    cases hs : step s with
    | next u =>
      rw [run_succ_of_step hs] at h
      rw [Nat.succ_add, run_succ_of_step hs]
      exact ih h n
    | fault r =>
      simp only [Host.Core.run, show core.step s = .fault r from hs] at h
      cases h
    | refused r =>
      simp only [Host.Core.run, show core.step s = .refused r from hs] at h
      cases h

/-- Out of reset, a step performs the next access. -/
theorem step_access {s : State} {r : Request} {rest : List Input} (h : s.inReset = false)
    (hi : s.inputs = .access r :: rest) :
    step s = exec (decodeRequest r) (s.withInputs rest) := by
  simp only [step, State.nextAction, hi, h]
  rfl

end Sys2Proof.Machine
end

