-- ==== Sys2Proof/Tests/Slice0.lean ====
section
/-! SUPPORT. The model's own tests: ill-formed terms, the words of the encodings, one step of each
instruction with results from spec/95_test_vectors.md, and for every statement with hypotheses a
concrete case that meets them. -/

namespace Sys2Proof.Tests

open Sys2Proof.Machine Sys2Proof.Claims

/-! Small states and readings. -/

/-- The next state of an instruction, none where it stops. -/
def stateOf : Host.Outcome State Fault Refusal → Option State
  | .next t => some t
  | .fault _ => none
  | .refused _ => none

/-- What a reading sees after an instruction. -/
def see {α : Type} (i : Instr) (s : State) (f : State → α) : Option α := (stateOf (exec i s)).map f

/-- The answer of a read. -/
def answer (i : Instr) (s : State) : Option Word64 := (stateOf (exec i s)).bind (fun t => t.rdata)

/-- An identifier from its two halves in canonical order. -/
def idOf (hi lo : Word64) : Identifier :=
  #v[byteOf hi 7, byteOf hi 6, byteOf hi 5, byteOf hi 4, byteOf hi 3, byteOf hi 2, byteOf hi 1,
     byteOf hi 0, byteOf lo 7, byteOf lo 6, byteOf lo 5, byteOf lo 4, byteOf lo 3, byteOf lo 2,
     byteOf lo 1, byteOf lo 0]

/-- A text from its octets, eight to a word, first octet highest; the last word holds four. -/
def textOf (a b c d e : Word64) : Text :=
  #v[byteOf a 7, byteOf a 6, byteOf a 5, byteOf a 4, byteOf a 3, byteOf a 2, byteOf a 1, byteOf a 0,
     byteOf b 7, byteOf b 6, byteOf b 5, byteOf b 4, byteOf b 3, byteOf b 2, byteOf b 1, byteOf b 0,
     byteOf c 7, byteOf c 6, byteOf c 5, byteOf c 4, byteOf c 3, byteOf c 2, byteOf c 1, byteOf c 0,
     byteOf d 7, byteOf d 6, byteOf d 5, byteOf d 4, byteOf d 3, byteOf d 2, byteOf d 1, byteOf d 0,
     byteOf e 3, byteOf e 2, byteOf e 1, byteOf e 0]

/-- Reset, with the identifier given. -/
def withId (id : Identifier) : State := { State.reset with id := id }

/-- Reset, with the text given and STRLEN 36. -/
def withText (t : Text) : State := { State.reset with str := t, strlen := 36#8 }

/-- Reset, with bytes 6 and 8 of ID given. -/
def withMarkers (b6 b8 : Byte) : State :=
  withId ((State.reset.id.set 6 b6).set 8 b8)

/-- Reset under the key KP of 95_test_vectors.md. -/
def underKP : State :=
  { State.reset with key0 := 0x0706050403020100#64, key1 := 0x0f0e0d0c0b0a0908#64 }

/-- The key KE of 95_test_vectors.md on a state. -/
def underKE (s : State) : State :=
  { s with key0 := 0x0123456789abcdef#64, key1 := 0xfedcba9876543210#64 }

/-- The identifier of T-C1, T-F4 and the end of P6. -/
def sampleId : Identifier := idOf 0x017f22e279b07cc3#64 0x98c4dc0c0c07398f#64

/-- The text of T-C1. -/
def sampleText : Text :=
  textOf 0x3031376632326532#64 0x2d373962302d3763#64 0x63332d393863342d#64 0x6463306330633037#64
    0x33393866#64

/-! WellFormed refuses what has no encoding (30_encoding.md R83). -/

theorem test_sipfin_8_ill_formed : (Instr.sipfin 8).wellFormed = false := by decide

theorem test_siphash_256_ill_formed : (Instr.siphash 256).wellFormed = false := by decide

/-! Every constructor's word, written from 30_encoding.md R81, R82 and R87. -/

theorem test_decode_nop : decodeCommand 0x00000000#32 = .ok .nop := by decide
theorem test_decode_sipinit : decodeCommand 0x00000010#32 = .ok .sipinit := by decide
theorem test_decode_sipblk : decodeCommand 0x00000011#32 = .ok .sipblk := by decide
theorem test_decode_sipfin : decodeCommand 0x00000712#32 = .ok (.sipfin 7) := by decide
theorem test_decode_siphash : decodeCommand 0x00002013#32 = .ok (.siphash 32) := by decide
theorem test_decode_getver : decodeCommand 0x00000020#32 = .ok .getver := by decide
theorem test_decode_setver : decodeCommand 0x00000f21#32 = .ok (.setver 15#4) := by decide
theorem test_decode_setvar : decodeCommand 0x00000022#32 = .ok .setvar := by decide
theorem test_decode_validate : decodeCommand 0x00000023#32 = .ok .validate := by decide
theorem test_decode_newid : decodeCommand 0x00000024#32 = .ok .newid := by decide
theorem test_decode_parse : decodeCommand 0x00000030#32 = .ok .parse := by decide
theorem test_decode_parseraw : decodeCommand 0x00000031#32 = .ok .parseraw := by decide
theorem test_decode_format : decodeCommand 0x00000032#32 = .ok .format := by decide
theorem test_decode_mask : decodeCommand 0x00000040#32 = .ok .mask := by decide
theorem test_decode_encode : decodeCommand 0x00000041#32 = .ok .encode := by decide
theorem test_decode_decode : decodeCommand 0x00000042#32 = .ok .decode := by decide

/-- WE = 0, SIZE = 0, OFF = 0x3A (P2 step 9). -/
theorem test_decode_lb : decodeRequest ⟨0b000_0011_1010#11, 0#64⟩ = .lb 0x3A#8 := by decide
/-- WE = 0, SIZE = 1, OFF = 0x2E (P2 step 11). -/
theorem test_decode_lh : decodeRequest ⟨0b001_0010_1110#11, 0#64⟩ = .lh 0x2E#8 := by decide
/-- WE = 0, SIZE = 2, OFF = 0x28 (P2 step 10). -/
theorem test_decode_lw : decodeRequest ⟨0b010_0010_1000#11, 0#64⟩ = .lw 0x28#8 := by decide
/-- WE = 0, SIZE = 3, OFF = 0x28 (P2 step 8). -/
theorem test_decode_ld : decodeRequest ⟨0b011_0010_1000#11, 0#64⟩ = .ld 0x28#8 := by decide
/-- WE = 1, SIZE = 0, OFF = 0x39 (P1 step 8). -/
theorem test_decode_sb : decodeRequest ⟨0b100_0011_1001#11, 0x24#64⟩ = .sb 0x39#8 0x24#8 := by decide
/-- WE = 1, SIZE = 1, OFF = 0x3C (P3 step 13). -/
theorem test_decode_sh : decodeRequest ⟨0b101_0011_1100#11, 0x24#64⟩ = .sh 0x3C#8 0x24#16 := by
  decide
/-- WE = 1, SIZE = 2, OFF = 0x60 (P1 step 7). -/
theorem test_decode_sw :
    decodeRequest ⟨0b110_0110_0000#11, 0x30303030#64⟩ = .sw 0x60#8 0x30303030#32 := by decide
/-- WE = 1, SIZE = 3, OFF = 0x10 (P1 step 1). -/
theorem test_decode_sd : decodeRequest ⟨0b111_0001_0000#11, 0x0123456789abcdef#64⟩ =
    .sd 0x10#8 0x0123456789abcdef#64 := by decide

/-- A narrow write ignores the upper bits of WDATA (30_encoding.md R84). -/
theorem test_decode_sb_upper_wdata :
    decodeRequest ⟨0x439#11, 0xFFFFFFFFFFFFFF24#64⟩ = .sb 0x39#8 0x24#8 := by decide

/-- T-H92, T-H93, T-B8, T-X3, T-X5: illegal words, by clause of 30_encoding.md R86. -/
theorem test_illegal_words :
    decodeCommand 0x00000810#32 = .error .operandBits ∧
    decodeCommand 0x00000812#32 = .error .operandBits ∧
    decodeCommand 0x00001021#32 = .error .operandBits ∧
    decodeCommand 0x00010000#32 = .error .reservedBits ∧
    decodeCommand 0x00000043#32 = .error .unassignedOpcode := by decide

/-- The words of the opcode table, as the host numbers them. -/
theorem test_table_words :
    decodeTableWord 32 0x42 = some .decode ∧ decodeTableWord 16 0x33A = some (.ld 0x3A#8) ∧
    decodeTableWord 32 0x43 = none ∧ decodeTableWord 16 0x800 = none := by decide

/-- The assembler's text (30_encoding.md R91). -/
theorem test_asm_lines :
    asmLine (.sipfin 7) = "SIPFIN 7" ∧ asmLine (.sw 0x60#8 5#32) = "SW 96, 5" := by decide

/-- LDSTR writes at most 36 octets and the length (30_encoding.md R92). -/
theorem test_ldstr : ldstr [0x61#8] = [.sb 0x40#8 0x61#8, .sb 0x39#8 1#8] ∧
    (ldstr (List.replicate 40 0x61#8)).length = 37 := by decide

/-! The hash (95_test_vectors.md section 2). -/

/-- T-H2. -/
theorem test_sipround_one : sipRound ⟨1#64, 0#64, 0#64, 0#64⟩ =
    ⟨0x0000000100000000#64, 0x0000000000020001#64, 0x0000000100000000#64,
     0x0000000100000000#64⟩ := by decide

/-- T-H4. -/
theorem test_sipround_ones :
    sipRound ⟨0xffffffffffffffff#64, 0xffffffffffffffff#64, 0xffffffffffffffff#64,
      0xffffffffffffffff#64⟩ =
    ⟨0xffffffff00000000#64, 0xfffffffffffdffff#64, 0xffffffffffffffff#64,
     0xffffffff00200000#64⟩ := by decide

/-- T-H80. -/
theorem test_sipinit : see .sipinit underKP (fun t => (t.lanes, t.slen)) =
    some (⟨0x7469686173716475#64, 0x6b617f6d656e6665#64, 0x6b7f62616d677361#64,
      0x7b6b696e727e6c7b#64⟩, 0#8) := by decide

/-- T-H81. -/
theorem test_sipblk :
    see .sipblk { underKP with
        din := 0x0706050403020100#64
        lanes := ⟨0x7469686173716475#64, 0x6b617f6d656e6665#64, 0x6b7f62616d677361#64,
          0x7b6b696e727e6c7b#64⟩ } (fun t => (t.lanes, t.slen)) =
      some (⟨0x4a017198de0a59e0#64, 0x0d52f6f62a4f59a4#64, 0x634cb3577b01fd3d#64,
        0xa5224d6f55c7d9c8#64⟩, 8#8) := by decide

/-- T-H82. -/
theorem test_sipfin_7 :
    see (.sipfin 7) { underKP with
        din := 0x000e0d0c0b0a0908#64
        slen := 8#8
        lanes := ⟨0x4a017198de0a59e0#64, 0x0d52f6f62a4f59a4#64, 0x634cb3577b01fd3d#64,
          0xa5224d6f55c7d9c8#64⟩ } (fun t => (t.digest, t.slen)) =
      some (0xa129ca6149be45e5#64, 15#8) := by decide

/-- T-H84. -/
theorem test_sipfin_0 : see (.sipfin 0) State.reset (fun t => (t.digest, t.slen, t.status)) =
    some (0x3c4ceb5cc070daa0#64, 0#8, 0#8) := by decide

/-- T-H88, the length 32 at the edge of MSG. -/
theorem test_siphash_32 :
    see (.siphash 32) { underKP with
        msg := #v[0x00#8, 0x01#8, 0x02#8, 0x03#8, 0x04#8, 0x05#8, 0x06#8, 0x07#8,
                  0x08#8, 0x09#8, 0x0a#8, 0x0b#8, 0x0c#8, 0x0d#8, 0x0e#8, 0x0f#8,
                  0x10#8, 0x11#8, 0x12#8, 0x13#8, 0x14#8, 0x15#8, 0x16#8, 0x17#8,
                  0x18#8, 0x19#8, 0x1a#8, 0x1b#8, 0x1c#8, 0x1d#8, 0x1e#8, 0x1f#8] }
      (fun t => (t.digest, t.slen)) = some (0x7127512f72f27cce#64, 32#8) := by decide +kernel

/-- T-H90. -/
theorem test_siphash_33 : exec (.siphash 33) underKP = .next { underKP with status := 0x86#8 } := by
  rfl

/-! The bit fields (95_test_vectors.md section 3). -/

/-- T-B1 and T-B3. -/
theorem test_getver : see .getver State.reset (fun t => t.res) = some 0#64 ∧
    see .getver (withMarkers 0x70#8 0x80#8) (fun t => t.res) = some 7#64 := by decide

/-- T-B5. -/
theorem test_setver : see (.setver 4#4) (withMarkers 0x7a#8 0#8) (fun t => t.id[6]) = some 0x4a#8 := by
  decide

/-- T-B9. -/
theorem test_setvar : see .setvar (withMarkers 0#8 0x3f#8) (fun t => t.id[8]) = some 0xbf#8 := by
  decide

/-- T-B16 and T-B17. -/
theorem test_validate_variant :
    see .validate (withMarkers 0x4f#8 0x9c#8) (fun t => t.status) = some 0x00#8 ∧
    see .validate (withMarkers 0x40#8 0x00#8) (fun t => t.status) = some 0x84#8 := by decide

/-- T-B23: version before variant. -/
theorem test_validate_version :
    see .validate (withMarkers 0xf0#8 0x40#8) (fun t => t.status) = some 0x83#8 := by decide

/-- T-B2. -/
theorem test_newid : see .newid (withId sampleId) (fun t => t.id) =
    some (idOf 0x0000000000007000#64 0x8000000000000000#64) := by decide

/-! The text codec (95_test_vectors.md section 4). -/

/-- T-C1. -/
theorem test_parse : see .parse (withText sampleText) (fun t => (t.id, t.status)) =
    some (sampleId, 0#8) := by decide

/-- T-X21: the length is looked at first. -/
theorem test_parse_short :
    see .parse { State.reset with strlen := 35#8, str := Vector.replicate 36 0x7a#8 }
      (fun t => t.status) = some 0x81#8 := by decide

/-- T-C17 and T-C16: PARSERAW takes the version PARSE refuses. -/
theorem test_parseraw :
    see .parseraw (withText (textOf 0x3030303030303030#64 0x2d303030302d3130#64
      0x30302d383030302d#64 0x3030303030303030#64 0x30303030#64)) (fun t => (t.id, t.status)) =
      some (idOf 0x0000000000001000#64 0x8000000000000000#64, 0#8) ∧
    see .parse (withText (textOf 0x3030303030303030#64 0x2d303030302d3130#64
      0x30302d383030302d#64 0x3030303030303030#64 0x30303030#64)) (fun t => t.status) =
      some 0x83#8 := by decide

/-- T-C9: a misplaced hyphen. -/
theorem test_parseraw_hyphen :
    see .parseraw (withText (textOf 0x303030303030302d#64 0x30303030302d3730#64
      0x30302d383030302d#64 0x3030303030303030#64 0x30303030#64)) (fun t => t.status) =
      some 0x82#8 := by decide

/-- T-C28. -/
theorem test_format : see .format (withId sampleId) (fun t => (t.str, t.strlen)) =
    some (sampleText, 36#8) := by decide

/-! The facade (95_test_vectors.md section 5). -/

/-- T-F4. -/
theorem test_mask : see .mask (underKE (withId sampleId)) (fun t => (t.res, t.digest, t.slen)) =
    some (0x0000fef9f33a006b#64, 0xed68fef9f33a006b#64, 10#8) := by decide

/-- T-F4. -/
theorem test_encode : see .encode (underKE (withId sampleId)) (fun t => t.id) =
    some (idOf 0xff86d1d879db4cc3#64 0x98c4dc0c0c07398f#64) := by decide

/-- T-F17. -/
theorem test_encode_lanes :
    see .encode (underKE (withMarkers 0x70#8 0x80#8)) (fun t => (t.lanes, t.res)) =
    some (⟨0x983b26afe1de421d#64, 0x1f842545994fbfc0#64, 0xaff9cf543882d614#64,
      0x14aaee673135bdc0#64⟩, 0#64) := by decide

/-- T-F11. -/
theorem test_decode_of_version_7 : see .decode (underKE (withId sampleId)) (fun t => t.id) =
    some (idOf 0xff86d1d879db7cc3#64 0x98c4dc0c0c07398f#64) := by decide

/-! Host transactions (95_test_vectors.md section 6). -/

/-- T-X1. -/
theorem test_nop : exec .nop { State.reset with status := 0x85#8 } =
    .next { State.reset with status := 0x80#8 } := by rfl

/-- T-X9, T-X18. -/
theorem test_lb : answer (.lb 0x21#8) { State.reset with din := 0x0706050403020100#64 } = some 1#64 ∧
    answer (.lb 0x2F#8) { State.reset with digest := 0xa129ca6149be45e5#64 } = some 0xa1#64 := by
  decide

/-- T-X18, T-X17. -/
theorem test_lh :
    answer (.lh 0x2E#8) { State.reset with digest := 0xa129ca6149be45e5#64 } = some 0xa129#64 ∧
    exec (.lh 0x2F#8) State.reset = .fault .busError := ⟨by decide, rfl⟩

/-- T-X18, T-X17. -/
theorem test_lw :
    answer (.lw 0x28#8) { State.reset with digest := 0xa129ca6149be45e5#64 } = some 0x49be45e5#64 ∧
    exec (.lw 0x2A#8) State.reset = .fault .busError := ⟨by decide, rfl⟩

/-- T-X11, T-X8. -/
theorem test_ld :
    answer (.ld 0x38#8) { State.reset with status := 0x82#8, strlen := 36#8, slen := 10#8 } =
      some 0x00000000000a2482#64 ∧ answer (.ld 0x18#8) underKP = some 0#64 := by decide

/-- T-X12 and T-X13. -/
theorem test_sb :
    see (.sb 0x38#8 0x05#8) { State.reset with status := 0x82#8 } (fun t => t.status) =
      some 0x82#8 ∧
    see (.sb 0x38#8 0x80#8) { State.reset with status := 0x82#8 } (fun t => t.status) =
      some 0x02#8 := by decide

/-- T-X10, T-X17. -/
theorem test_sh :
    see (.sh 0x22#8 0xbbaa#16) { State.reset with din := 0x0706050403020100#64 } (fun t => t.din) =
      some 0x07060504bbaa0100#64 ∧
    exec (.sh 0x01#8 0x24#16) State.reset = .fault .busError := ⟨by decide, rfl⟩

/-- T-X2, P3 step 10: the word written at 0x3C is a command. -/
theorem test_sw_issues :
    see (.sw 0x3C#8 0x00000100#32) State.reset (fun t => t.status) = some 0x85#8 ∧
    see (.sw 0x3C#8 0x00002113#32) State.reset (fun t => t.status) = some 0x86#8 ∧
    see (.sw 0x3C#8 0x00000024#32) State.reset (fun t => t.id[6]) = some 0x70#8 := by decide

/-- T-X17, P1 step 7. -/
theorem test_sw : exec (.sw 0x3D#8 0x24#32) State.reset = .fault .busError ∧
    see (.sw 0x60#8 0x33323130#32) State.reset (fun t => (t.str[32], t.str[35])) =
      some (0x30#8, 0x33#8) := ⟨rfl, by decide⟩

/-- T-X14, T-X17. -/
theorem test_sd :
    see (.sd 0x38#8 0x0000002400000080#64) { State.reset with status := 0x85#8, strlen := 36#8 }
      (fun t => (t.status, t.strlen, t.id[6])) = some (0x05#8, 0#8, 0#8) ∧
    exec (.sd 0x3C#8 0x24#64) State.reset = .fault .busError := ⟨by decide, rfl⟩

/-- P6 step 1: ID in canonical order from little-endian write data. -/
theorem test_sd_id :
    see (.sd 0x00#8 0xc37cb079e2227f01#64) State.reset (fun t => (t.id[0], t.id[6], t.id[7])) =
      some (0x01#8, 0x7c#8, 0xc3#8) := by decide

/-- A word of the opcode table runs as the first instruction after reset. -/
theorem test_first_step :
    (stateOf (step (State.reset.withFetchWord 32 0x24))).map (fun t => t.id[8]) = some 0x80#8 ∧
    (stateOf (step (State.reset.withFetchWord 16 0x300))).bind (fun t => t.rdata) = some 0#64 := by
  decide

/-! Witnesses: a concrete case for every hypothesis of every statement, at the edges of its range. -/

/-- A read of STATUS, and a write of STATUS that clears ERR, as requests. -/
def readStatus : Request := ⟨0x038#11, 0#64⟩

/-- The request `SB 0x38, 0x80`. -/
def clearStatus : Request := ⟨0x438#11, 0x80#64⟩

/-- Reset, with the inputs given, reset asserted or not. -/
def withQueue (asserted : Bool) (is : List Input) : State :=
  { State.reset with inReset := asserted, inputs := is }

/-- Reset asserted with registers set; then waiting accesses behind an assertion, behind a release,
behind none, and nothing at all. -/
theorem test_witness_ResetInput :
    (∃ (s : State) (rest : List Input), s.inputs = .resetLine true :: rest ∧ s.status = 0x85#8) ∧
    (withQueue true [.access readStatus]).inReset = true ∧
    step (withQueue true [.access readStatus]) = .fault .heldInReset ∧
    step (withQueue true [.access readStatus, .resetLine false]) =
      .next (withQueue false [.access readStatus]) ∧
    step (withQueue true []) = .next (withQueue true []) :=
  ⟨⟨{ withQueue false [.resetLine true] with status := 0x85#8 }, [], rfl, rfl⟩, rfl, rfl, rfl, rfl⟩

theorem test_witness_HeldAccesses :
    (∃ (s : State) (r : Request) (pre post : List Input), s.inReset = true ∧ (∀ i ∈ pre, Input.isAccess i = true) ∧
      s.inputs = .access r :: pre ++ .resetLine false :: post ∧ pre ≠ [] ∧ post ≠ []) ∧
    (∃ (s : State) (r : Request) (pre : List Input), s.inReset = true ∧ (∀ i ∈ pre, Input.isAccess i = true) ∧
      s.inputs = .access r :: pre ∧ pre ≠ []) :=
  ⟨⟨withQueue true [.access readStatus, .access clearStatus, .resetLine false, .resetLine true],
      readStatus, [.access clearStatus], [.resetLine true], rfl, by decide, rfl, by decide, by decide⟩,
    ⟨withQueue true [.access readStatus, .access clearStatus], readStatus, [.access clearStatus],
      rfl, by decide, rfl, by decide⟩⟩

theorem test_witness_StepPerforms :
    (withQueue false [.access readStatus]).inReset = false ∧
    (withQueue false [.access readStatus]).inputs = .access readStatus :: [] ∧
    State.reset.inputs = [] := ⟨rfl, rfl, rfl⟩

theorem test_witness_StepRuns :
    (Instr.sipfin 7).wellFormed = true ∧ (Instr.siphash 255).wellFormed = true ∧
    (withQueue false [.access (requestOf (.sipfin 7))]).inputs =
      .access (requestOf (.sipfin 7)) :: [] ∧
    decodeTableWord 32 0xff13 = some (.siphash 255) ∧
    decodeTableWord 17 0x00 = some .nop ∧ decodeTableWord 16 0x7ff = some (.sd 0xff#8 0#64) := by
  decide

theorem test_witness_OnlyAWordWriteToCmd :
    (⟨0x63C#11, 0x24#64⟩ : Request).header = 0x63C#11 ∧
    decodeCommand ((0x24#64).extractLsb' 0 32) = .ok .newid ∧
    decodeCommand ((0x43#64).extractLsb' 0 32) = .error .unassignedOpcode ∧
    (⟨0x53C#11, 0x24#64⟩ : Request).header ≠ 0x63C#11 ∧
    step (withQueue false [.access ⟨0x53C#11, 0x24#64⟩]) = .next State.reset ∧
    step (withQueue false [.access readStatus]) =
      .next { State.reset with rdata := some 0#64 } :=
  ⟨rfl, by decide, by decide, by decide, rfl, rfl⟩

theorem test_witness_WellFormed :
    (Instr.sipfin 0).wellFormed = true ∧ (Instr.siphash 0).wellFormed = true ∧
    (Instr.sd 0xff#8 (BitVec.allOnes 64)).wellFormed = true := by decide

/-- Each clause of an illegal word at the edge of its range, and three legal words beside them. -/
theorem test_witness_IllegalWords :
    IllegalWord 0x00010000#32 ∧ IllegalWord 0x80000010#32 ∧ IllegalWord 0x00000014#32 ∧
    IllegalWord 0x000000ff#32 ∧ IllegalWord 0x00000812#32 ∧ IllegalWord 0x00001021#32 ∧
    IllegalWord 0x00000100#32 ∧ ¬ IllegalWord 0x00000712#32 ∧ ¬ IllegalWord 0x00000f21#32 ∧
    ¬ IllegalWord 0x0000ff13#32 := by
  unfold IllegalWord
  refine ⟨?_, ?_, ?_, ?_, ?_, ?_, ?_, ?_, ?_, ?_⟩ <;> decide

/-- Aligned and misaligned offsets at the top of the window, for each width. -/
theorem test_witness_Alignment :
    misaligned (.lb 0xff#8) = false ∧ misaligned (.lh 0xfe#8) = false ∧
    misaligned (.lw 0xfc#8) = false ∧ misaligned (.ld 0xf8#8) = false ∧
    misaligned (.sh 0xff#8 0#16) = true ∧ misaligned (.sw 0xfe#8 0#32) = true ∧
    misaligned (.sd 0xfc#8 0#64) = true ∧ misaligned .nop = false := by decide

/-- The first and last byte of each range of the window. -/
theorem test_witness_WindowRanges :
    (0x64#8 : Byte) ≤ 0x64#8 ∧ (0x7f#8 : Byte) ≤ 0x7f#8 ∧ (0xa0#8 : Byte) ≤ 0xff#8 ∧
    (0x28#8 : Byte) ≤ 0x37#8 ∧ (0x10#8 : Byte) ≤ 0x1f#8 ∧ (0x3c#8 : Byte) ≤ 0x3f#8 ∧
    rbyte { State.reset with id := State.reset.id.set 15 1#8 } 0x0f = 1#8 ∧
    rbyte { State.reset with msg := State.reset.msg.set 31 1#8 } 0x9f = 1#8 ∧
    rbyte { State.reset with str := State.reset.str.set 35 1#8 } 0x63 = 1#8 := by decide

/-- A write is stored at each end of each writable range, and nowhere beside it. -/
theorem test_witness_Writable :
    Writable 0x00 ∧ Writable 0x27 ∧ ¬ Writable 0x28 ∧ ¬ Writable 0x38 ∧ Writable 0x39 ∧
    ¬ Writable 0x3a ∧ ¬ Writable 0x3f ∧ Writable 0x40 ∧ Writable 0x63 ∧ ¬ Writable 0x64 ∧
    ¬ Writable 0x7f ∧ Writable 0x80 ∧ Writable 0x9f ∧ ¬ Writable 0xa0 := by
  unfold Writable
  omega

theorem test_witness_Stores :
    (0xfe#8 : Byte).toNat % 2 = 0 ∧ (0x38#8 : Byte).toNat % 4 = 0 ∧ (0x38#8 : Byte) ≠ 0x3C#8 ∧
    (0xf8#8 : Byte).toNat % 8 = 0 := by decide

theorem test_witness_Idempotent :
    (∃ t, exec (.sb 0x38#8 0x80#8) State.reset = .next t) ∧
    (∃ t, exec (.sh 0x3C#8 0x24#16) State.reset = .next t) ∧
    (∃ t, exec (.sw 0x20#8 0x24#32) State.reset = .next t) ∧
    (∃ t, exec (.sd 0x38#8 0x24#64) State.reset = .next t) :=
  ⟨⟨_, rfl⟩, ⟨_, rfl⟩, ⟨_, rfl⟩, ⟨_, rfl⟩⟩

/-- Two values of DIN with the same low seven bytes, and any two for no byte. -/
theorem test_witness_Sipfin :
    (0xff01020304050607#64 : Word64).toNat % 2 ^ (8 * 7) =
      (0x0001020304050607#64 : Word64).toNat % 2 ^ (8 * 7) ∧
    (5#64 : Word64).toNat % 2 ^ (8 * 0) = (0#64 : Word64).toNat % 2 ^ (8 * 0) := by decide

/-- The empty message and the longest one. -/
theorem test_witness_Siphash :
    (∃ m : List Byte, ∃ _ : m.length ≤ 32, m.length = 0 ∧
      ∀ j (hj : j < m.length), m[j] = State.reset.msg[j]) ∧
    (∃ m : List Byte, ∃ _ : m.length ≤ 32, m.length = 32 ∧
      ∀ j (hj : j < m.length), m[j] = State.reset.msg[j]) ∧ 32 < 33 :=
  ⟨⟨[], by decide, rfl, by decide⟩, ⟨List.replicate 32 0#8, by decide, by decide, by decide⟩,
    by decide⟩

/-- The accesses of the hash of a nine-byte message, one full block and one byte. -/
theorem test_witness_Stream :
    ∃ (m : List Byte) (s : State) (rest : List Input), s.inReset = false ∧
      s.inputs = accessesOf (streamHash m) ++ rest ∧ m.length = 9 ∧ rest ≠ [] :=
  ⟨List.replicate 9 1#8,
    withQueue false (accessesOf (streamHash (List.replicate 9 1#8)) ++ [.resetLine true]),
    [.resetLine true], rfl, rfl, rfl, by decide⟩

theorem test_witness_Bitfield :
    (versionNibble State.reset.id = (0#4 : BitVec 4).toNat) ∧
    variantBits (withMarkers 0#8 0xbf#8).id = 2 ∧ versionNibble (withMarkers 0x4f#8 0#8).id = 4 ∧
    versionNibble (withMarkers 0x70#8 0#8).id = 7 := by decide

/-- Digits that are the nibbles of `b` make a text that parses to `b`. -/
theorem parsed_of_digits (s : State) (b : Identifier) (hl : s.strlen.toNat = 36)
    (hy : Hyphenated s.str)
    (hd : ∀ k : Fin 16, HexDigit s.str[D[2 * k.val]] (b[k].toNat / 16) ∧
      HexDigit s.str[D[2 * k.val + 1]] (b[k].toNat % 16)) : Parsed s b :=
  ⟨hl, hy, fun k => ⟨_, _, (hd k).1, (hd k).2, by omega⟩⟩

/-- The text of T-C1 parses to a valid identifier. -/
theorem test_witness_Parsed : Parsed (withText sampleText) sampleId ∧ ValidId sampleId := by
  refine ⟨parsed_of_digits _ _ rfl ?_ ?_, ?_⟩
  · unfold Hyphenated; decide
  · unfold HexDigit; decide
  · unfold ValidId; decide

/-- Upper case parses to the same identifier (T-C2). -/
theorem test_witness_Parsed_upper :
    Parsed (withText (textOf 0x3031374632324532#64 0x2d373942302d3743#64 0x43332d393843342d#64
      0x4443304330433037#64 0x33393846#64)) sampleId := by
  refine parsed_of_digits _ _ rfl ?_ ?_
  · unfold Hyphenated; decide
  · unfold HexDigit; decide

/-- Texts that parse to a bad version (T-C16) and to a bad variant (T-C18). -/
theorem test_witness_Parsed_invalid :
    (∃ s b, Parsed s b ∧ versionNibble b ≠ 4 ∧ versionNibble b ≠ 7) ∧
    (∃ s b, Parsed s b ∧ versionNibble b = 7 ∧ variantBits b ≠ 2) := by
  refine ⟨⟨withText (textOf 0x3030303030303030#64 0x2d303030302d3130#64 0x30302d383030302d#64
      0x3030303030303030#64 0x30303030#64), idOf 0x0000000000001000#64 0x8000000000000000#64,
      parsed_of_digits _ _ rfl ?_ ?_, by decide, by decide⟩,
    ⟨withText (textOf 0x3030303030303030#64 0x2d303030302d3730#64 0x30302d633030302d#64
      0x3030303030303030#64 0x30303030#64), idOf 0x0000000000007000#64 0xc000000000000000#64,
      parsed_of_digits _ _ rfl ?_ ?_, by decide, by decide⟩⟩
  · unfold Hyphenated; decide
  · unfold HexDigit; decide
  · unfold Hyphenated; decide
  · unfold HexDigit; decide

/-- A wrong length; a right length without hyphens; hyphens and no digits (T-C8). -/
theorem test_witness_NotParsed :
    State.reset.strlen.toNat ≠ 36 ∧
    (¬ ∃ b, Parsed (withText State.reset.str) b) ∧
    (¬ ∃ b, Parsed (withText (textOf 0x7a7a7a7a7a7a7a7a#64 0x2d7a7a7a7a2d7a7a#64
      0x7a7a2d7a7a7a7a2d#64 0x7a7a7a7a7a7a7a7a#64 0x7a7a7a7a#64)) b) := by
  refine ⟨by decide, ?_, ?_⟩
  · rintro ⟨b, -, ⟨h, -⟩, -⟩
    exact absurd h (by decide)
  · rintro ⟨b, -, -, h⟩
    obtain ⟨hi, lo, h1, -, -⟩ := h 0
    have digit : ∀ v, ¬ HexDigit 0x7a#8 v := by
      intro v hv
      rcases hv with ⟨-, h2, -⟩ | ⟨-, h2, -⟩ | ⟨-, h2, -⟩ <;> exact absurd h2 (by decide)
    exact digit hi h1

/-- The lowercase text of a valid identifier. -/
theorem test_witness_TextOf : TextOf (withText sampleText).str sampleId ∧
    (withText sampleText).strlen.toNat = 36 ∧ ValidId sampleId := by
  refine ⟨⟨?_, ?_⟩, rfl, ?_⟩
  · unfold Hyphenated; decide
  · unfold LowerDigit; decide
  · unfold ValidId; decide

/-- A facade to decode (T-F15), and two identifiers of one payload (T-F14). -/
theorem test_witness_Facade :
    versionNibble (idOf 0xff86d1d879db4cc3#64 0x98c4dc0c0c07398f#64) = 4 ∧
    variantBits (idOf 0xff86d1d879db4cc3#64 0x98c4dc0c0c07398f#64) = 2 ∧
    SamePayload (idOf 0x017f22e279b04cc3#64 0x18c4dc0c0c07398f#64)
      (idOf 0xaaaaaaaaaaaafcc3#64 0xd8c4dc0c0c07398f#64) := by
  unfold SamePayload
  decide

theorem test_witness_Commands :
    Instr.nop.isCommand = true ∧ (Instr.siphash 33).isCommand = true ∧
    (Instr.sipfin 7).isCommand = true ∧ Instr.decode.isCommand = true ∧
    mayWriteOffset .nop 0x39 = false ∧ mayWriteOffset .format 0x3f = false ∧
    mayWriteOffset .format 0x64 = false ∧ mayWriteOffset .encode 0x10 = false ∧
    mayWriteOffset .mask 0x27 = false := by decide

/-- ERR is cleared by reset and by a write, and by nothing else here. -/
theorem test_witness_Err :
    (0x80#8 : Byte).getLsbD 7 = true ∧
    (stateOf (step { withQueue false [.resetLine true] with status := 0x85#8 })).map State.err =
      some false ∧
    (stateOf (step { withQueue false [.access clearStatus] with status := 0x85#8 })).map State.err =
      some false ∧
    (stateOf (step { withQueue false [.access readStatus] with status := 0x85#8 })).map State.err =
      some true := by decide

/-- Two states of different keys and lanes, and instructions that reveal no digest. -/
theorem test_witness_Secrets :
    SameButSecrets State.reset { underKP with lanes := ⟨1#64, 2#64, 3#64, 4#64⟩ } ∧
    revealsDigest .sipblk = false ∧ revealsDigest (.ld 0x28#8) = false ∧
    revealsDigest (.ld 0x03#8) = false ∧ revealsDigest (.sw 0x3C#8 0x11#32) = false ∧
    revealsDigest (.sw 0x3C#8 0x43#32) = false ∧ revealsDigest (.sw 0x3C#8 0x40#32) = true :=
  ⟨rfl, by decide⟩

/-- The invariant at the largest code and the longest RES, and a step from there. -/
theorem test_witness_Inv :
    { State.reset with status := 0x86#8, res := 0x0000ffffffffffff#64 : State }.Inv ∧
    step { State.reset with status := 0x86#8, res := 0x0000ffffffffffff#64 } =
      .next { State.reset with status := 0x86#8, res := 0x0000ffffffffffff#64 } :=
  ⟨by decide, rfl⟩

/-- A queue with an access that waits through a reset and is then performed. -/
theorem test_witness_Safe :
    (withQueue true [.access readStatus, .resetLine false, .access clearStatus]).Safe := by
  refine ⟨?_, by decide⟩
  intro r hr
  simp only [withQueue, List.mem_cons, Input.access.injEq, reduceCtorEq, List.not_mem_nil, or_false,
    false_or] at hr
  rcases hr with rfl | rfl <;> decide

end Sys2Proof.Tests
end

section
/-! PROOFS. The two inversion lemmas the state's statements are derived from: everything a step can do,
and everything an instruction can do, over all states at once. -/

namespace Sys2Proof.Machine

open Sys2Proof.Claims

/-- Everything a step that answers can do: hold the state, take a level of the reset input, or perform
an access. -/
theorem step_cases {s t : State} (h : step s = .next t) :
    t = s ∨
    (∃ asserted rest, s.nextAction = .resetLine asserted rest ∧
      t = (s.withInputs rest).driveReset asserted) ∨
    (∃ r rest, s.nextAction = .access r rest ∧
      exec (decodeRequest r) (s.withInputs rest) = .next t) := by
  unfold step at h
  split at h
  case h_1 => exact .inl (by cases h; rfl)
  case h_2 asserted rest ha => exact .inr (.inl ⟨asserted, rest, ha, by cases h; rfl⟩)
  case h_3 => contradiction
  case h_4 r rest ha => exact .inr (.inr ⟨r, rest, ha, h⟩)

/-- The issue of a word, in every state alike, is a command of the word's own, or a failure. -/
theorem issue_cases (w : BitVec 32) :
    (∃ j, decodeCommand w = .ok j ∧ j.isCommand = true ∧ ∀ s, issue w s = exec j s) ∨
    (∀ s, issue w s = .next (s.fail .illegalCommand)) := by
  cases hd : decodeCommand w with
  | ok j => exact .inl ⟨j, rfl, Laws.decodeCommand_isCommand hd, issue_ok hd⟩
  | error e => exact .inr (issue_error hd)

/-- Everything an instruction can do, in every state alike: run a command (its own or the one it
issues), fail as an illegal word, read the window, or write it. -/
theorem exec_cases (i : Instr) :
    (∃ j, j.isCommand = true ∧ revealsDigest i = writesDigest j ∧ ∀ s, exec i s = exec j s) ∨
    (∀ s, exec i s = .next (s.fail .illegalCommand)) ∨
    (∃ off n, ∀ s, exec i s = readWindow off n s) ∨
    (∃ off n v, n ∣ 8 ∧ clearsErr i = (off == 0x38#8 && v.getLsbD 7) ∧
      ∀ s, exec i s = writeWindow off n v s) := by
  cases i
  case lb off => exact .inr (.inr (.inl ⟨off, 1, fun _ => rfl⟩))
  case lh off => exact .inr (.inr (.inl ⟨off, 2, fun _ => rfl⟩))
  case lw off => exact .inr (.inr (.inl ⟨off, 4, fun _ => rfl⟩))
  case ld off => exact .inr (.inr (.inl ⟨off, 8, fun _ => rfl⟩))
  case sb off v =>
    exact .inr (.inr (.inr ⟨off, 1, v.setWidth 64, by decide, by simp [clearsErr], fun _ => rfl⟩))
  case sh off v =>
    exact .inr (.inr (.inr ⟨off, 2, v.setWidth 64, by decide, by simp [clearsErr], fun _ => rfl⟩))
  case sd off v => exact .inr (.inr (.inr ⟨off, 8, v, by decide, rfl, fun _ => rfl⟩))
  case sw off v =>
    by_cases ho : off = cmdOffset
    · have hx : ∀ s, exec (.sw off v) s = issue v s := fun _ => if_pos ho
      rcases issue_cases v with ⟨j, hd, hj, e⟩ | e
      · exact .inl ⟨j, hj, by simp [revealsDigest, ho, hd, Except.toOption], fun s => (hx s).trans (e s)⟩
      · exact .inr (.inl fun s => (hx s).trans (e s))
    · exact .inr (.inr (.inr
        ⟨off, 4, v.setWidth 64, by decide, by simp [clearsErr], fun _ => if_neg ho⟩))
  all_goals exact .inl ⟨_, rfl, rfl, fun _ => rfl⟩

end Sys2Proof.Machine
end

section
/-! PROOFS. Noninterference: what the key and the lanes cannot reach (10_state.md R22, R26;
60_exceptions.md R210). Each operation, run on two states that differ at most there, keeps them so. -/

namespace Sys2Proof.Machine

open Sys2Proof.Claims

/-- The second state is the first with a key and lanes of its own. -/
theorem sameButSecrets_iff {s s' : State} : SameButSecrets s s' ↔
    ∃ k0 k1 l, s' = { s with key0 := k0, key1 := k1, lanes := l } := by
  constructor
  · exact fun h => ⟨_, _, _, h⟩
  · rintro ⟨k0, k1, l, rfl⟩
    rfl

theorem rbyte_of_sameButSecrets {s s' : State} (h : SameButSecrets s s') (a : Nat) :
    rbyte s' a = rbyte s a := by
  obtain ⟨k0, k1, l, rfl⟩ := sameButSecrets_iff.1 h
  rfl

theorem rdata_of_sameButSecrets {s s' : State} (h : SameButSecrets s s') : s'.rdata = s.rdata := by
  obtain ⟨k0, k1, l, rfl⟩ := sameButSecrets_iff.1 h
  rfl

theorem memRead_of_sameButSecrets {s s' : State} (h : SameButSecrets s s') (n : Nat) :
    ∀ a, memRead s' a n = memRead s a n := by
  induction n with
  | zero => exact fun _ => rfl
  | succ n ih => exact fun a => by rw [memRead, memRead, rbyte_of_sameButSecrets h, ih]

theorem fail_sameButSecrets {s s' : State} (h : SameButSecrets s s') (c : Code) :
    SameButSecrets (s.fail c) (s'.fail c) := by
  obtain ⟨k0, k1, l, rfl⟩ := sameButSecrets_iff.1 h
  rfl

theorem respond_sameButSecrets {s s' : State} (h : SameButSecrets s s') (v : Word64) :
    SameButSecrets (s.respond v) (s'.respond v) := by
  obtain ⟨k0, k1, l, rfl⟩ := sameButSecrets_iff.1 h
  rfl

/-- Two conditionals on one condition, alike in each branch, are alike. -/
theorem dite_sameButSecrets {p : Prop} [Decidable p] {f f' : p → State} {g g' : ¬p → State}
    (hf : ∀ h, SameButSecrets (f h) (f' h)) (hg : ∀ h, SameButSecrets (g h) (g' h)) :
    SameButSecrets (dite p f g) (dite p f' g') := by
  by_cases h : p
  · simpa only [dif_pos h] using hf h
  · simpa only [dif_neg h] using hg h

/-- The offset alone chooses the register a byte write goes to, so both states take the same branch. -/
theorem wbyte_sameButSecrets {s s' : State} (h : SameButSecrets s s') (a : Nat) (x : Byte) :
    SameButSecrets (wbyte s a x) (wbyte s' a x) := by
  obtain ⟨k0, k1, l, rfl⟩ := sameButSecrets_iff.1 h
  unfold wbyte
  iterate 11 refine dite_sameButSecrets (fun _ => rfl) fun _ => ?_
  rfl

theorem memWrite_sameButSecrets (n : Nat) : ∀ {s s' : State}, SameButSecrets s s' →
    ∀ (a : Nat) (v : Word64), SameButSecrets (memWrite s a v n) (memWrite s' a v n) := by
  induction n with
  | zero => exact fun h _ _ => h
  | succ n ih => exact fun h a v => ih (wbyte_sameButSecrets h a (byteOf v 0)) (a + 1) (v >>> 8)

/-- A command that writes no DIGEST branches on ID, STR and STRLEN alone, so both states take the same
branch. -/
theorem exec_command_sameButSecrets {i : Instr} (hi : i.isCommand = true)
    (hd : writesDigest i = false) {s s' : State} (h : SameButSecrets s s') :
    ∃ t t', exec i s = .next t ∧ exec i s' = .next t' ∧ SameButSecrets t t' := by
  obtain ⟨k0, k1, l, rfl⟩ := sameButSecrets_iff.1 h
  cases i
  case validate =>
    simp only [exec, execValidate]
    cases checkId s.id <;> exact ⟨_, _, rfl, rfl, rfl⟩
  case parse =>
    simp only [exec, execParse]
    cases scan s.strlen s.str with
    | error c => exact ⟨_, _, rfl, rfl, rfl⟩
    | ok r =>
      dsimp only
      cases checkId r <;> exact ⟨_, _, rfl, rfl, rfl⟩
  case parseraw =>
    simp only [exec, execParseraw]
    cases scan s.strlen s.str <;> exact ⟨_, _, rfl, rfl, rfl⟩
  case sipfin | siphash | mask | encode | decode => contradiction
  case lb | lh | lw | ld | sb | sh | sw | sd => contradiction
  all_goals exact ⟨_, _, rfl, rfl, rfl⟩

/-- The two states after an instruction that reveals no digest, or the one bus error. -/
theorem exec_sameButSecrets {i : Instr} (hi : revealsDigest i = false) {s s' : State}
    (h : SameButSecrets s s') :
    (exec i s = .fault .busError ∧ exec i s' = .fault .busError) ∨
    ∃ t t', exec i s = .next t ∧ exec i s' = .next t' ∧ SameButSecrets t t' := by
  rcases exec_cases i with ⟨j, hj, hr, e⟩ | e | ⟨off, n, e⟩ | ⟨off, n, v, -, -, e⟩ <;>
    rw [e s, e s']
  · exact .inr (exec_command_sameButSecrets hj (hr.symm.trans hi) h)
  · exact .inr ⟨_, _, rfl, rfl, fail_sameButSecrets h _⟩
  · unfold readWindow
    split
    · rw [memRead_of_sameButSecrets h]
      exact .inr ⟨_, _, rfl, rfl, respond_sameButSecrets h _⟩
    · exact .inl ⟨rfl, rfl⟩
  · unfold writeWindow
    split
    · exact .inr ⟨_, _, rfl, rfl, memWrite_sameButSecrets n h _ _⟩
    · exact .inl ⟨rfl, rfl⟩

/-- Settles O47: an instruction that reveals no digest keeps the two states alike outside the secrets,
and there neither the answer of a read nor a window byte depends on them. -/
theorem secretsReachTheHostOnlyThroughDigests :
    Obligations.SecretsReachTheHostOnlyThroughDigests := by
  intro i s s' h hi
  rcases exec_sameButSecrets hi h with stuck | ⟨t, t', ht, ht', alike⟩
  · exact .inl stuck
  · exact .inr ⟨t, t', ht, ht', alike, rdata_of_sameButSecrets alike, rbyte_of_sameButSecrets alike⟩

end Sys2Proof.Machine
end

section
/-! PROOFS. STATUS and RES across a step: the invariant of 10_state.md R25, R32 and R33, and the
stickiness of ERR (R34). -/

namespace Sys2Proof.Machine

open Sys2Proof.Claims

/-! The invariant. -/

/-- Whether STATUS is legal does not depend on ERR. -/
theorem statusLegal_of_and_0x7F {s t : State} (h : t.status &&& 0x7F#8 = s.status &&& 0x7F#8)
    (hs : s.StatusLegal) : t.StatusLegal := by
  have low : ∀ st : Byte, st &&& 0x70#8 = (st &&& 0x7F#8) &&& 0x70#8 ∧
      st.extractLsb' 0 4 = (st &&& 0x7F#8).extractLsb' 0 4 := by decide
  have reserved : t.status &&& 0x70#8 = s.status &&& 0x70#8 := by
    rw [(low t.status).1, h, ← (low s.status).1]
  have code : t.code = s.code := by
    rw [State.code, (low t.status).2, h, ← (low s.status).2, State.code]
  exact ⟨reserved.trans hs.1, code ▸ hs.2⟩

theorem statusCompleted_and_0x70 (st : Byte) : statusCompleted st &&& 0x70#8 = st &&& 0x70#8 := by
  revert st; decide

theorem statusFailed_and_0x70 (c : Code) (st : Byte) :
    statusFailed c st &&& 0x70#8 = st &&& 0x70#8 := by
  revert st; cases c <;> decide

theorem codeBits_le (c : Code) : (codeBits c).toNat ≤ 6 := by cases c <;> decide

theorem complete_statusLegal {s : State} (h : s.StatusLegal) : s.complete.StatusLegal :=
  ⟨(statusCompleted_and_0x70 s.status).trans h.1, by simp⟩

theorem fail_inv {s : State} (h : s.Inv) (c : Code) : (s.fail c).Inv :=
  ⟨⟨(statusFailed_and_0x70 c s.status).trans h.1.1, by simpa using codeBits_le c⟩, h.2⟩

/-- A command outside RES's writers keeps RES. -/
theorem exec_command_keeps_res {i : Instr} (hi : i.isCommand = true) (hr : writesRes i = false)
    {s t : State} (h : exec i s = .next t) : t.res = s.res := by
  cases i
  case siphash =>
    simp only [exec, execSiphash] at h
    split at h <;> cases h <;> rfl
  case validate =>
    simp only [exec, execValidate] at h
    split at h <;> cases h <;> rfl
  case parse =>
    simp only [exec, execParse] at h
    split at h
    · cases h; rfl
    · split at h <;> cases h <;> rfl
  case parseraw =>
    simp only [exec, execParseraw] at h
    split at h <;> cases h <;> rfl
  case getver | mask => contradiction
  case lb | lh | lw | ld | sb | sh | sw | sd => contradiction
  all_goals cases h; rfl

/-- A value of at most 48 bits, widened, is short. -/
theorem toNat_setWidth_lt {n : Nat} (v : BitVec n) (hn : n ≤ 48) :
    (v.setWidth 64).toNat < 2 ^ 48 := by
  calc (v.setWidth 64).toNat ≤ v.toNat := by
        rw [BitVec.toNat_setWidth]; exact Nat.mod_le _ _
    _ < 2 ^ n := v.isLt
    _ ≤ 2 ^ 48 := Nat.pow_le_pow_right (by decide) hn

/-- RES's two writers give a nibble and 48 bits of a digest, every other command keeps RES. -/
theorem exec_command_resShort {i : Instr} (hi : i.isCommand = true) {s t : State}
    (hs : s.ResShort) (h : exec i s = .next t) : t.ResShort := by
  cases hr : writesRes i with
  | false => exact (congrArg BitVec.toNat (exec_command_keeps_res hi hr h)).trans_lt hs
  | true =>
    cases i
    case getver => cases h; exact toNat_setWidth_lt (versionOf s.id) (by decide)
    case mask => cases h; exact toNat_setWidth_lt (mask48 s.id s.key0 s.key1) (by decide)
    all_goals contradiction

theorem exec_command_inv {i : Instr} (hi : i.isCommand = true) {s t : State} (hs : s.Inv)
    (h : exec i s = .next t) : t.Inv := by
  rcases exec_command_cases hi s with ⟨u, e, hu, -⟩ | ⟨c, -, e⟩
  · have legal : t.StatusLegal := by
      cases e.symm.trans h
      exact complete_statusLegal (statusLegal_of_and_0x7F (by rw [hu]) hs.1)
    exact ⟨legal, exec_command_resShort hi hs.2 h⟩
  · cases e.symm.trans h
    exact fail_inv hs c

theorem memWrite_inv {s : State} (h : s.Inv) (a n : Nat) (v : Word64) : (memWrite s a v n).Inv := by
  obtain ⟨-, hres, -⟩ := memWrite_fields n s a v
  exact ⟨statusLegal_of_and_0x7F (memWrite_status n s a v) h.1,
    (congrArg BitVec.toNat hres).trans_lt h.2⟩

theorem exec_inv {i : Instr} {s t : State} (hs : s.Inv) (h : exec i s = .next t) : t.Inv := by
  rcases exec_cases i with ⟨j, hj, -, e⟩ | e | ⟨off, n, e⟩ | ⟨off, n, v, -, -, e⟩ <;> rw [e s] at h
  · exact exec_command_inv hj hs h
  · cases h
    exact fail_inv hs _
  · rcases readWindow_cases off n s with ⟨-, e⟩ | ⟨-, e⟩ <;> cases e.symm.trans h
    exact hs
  · rcases writeWindow_cases off n v s with ⟨-, e⟩ | ⟨-, e⟩ <;> cases e.symm.trans h
    exact memWrite_inv hs _ _ _

/-- Settles O48: every register of reset is 0. -/
theorem invAtReset : Obligations.InvAtReset := by
  unfold Obligations.InvAtReset
  decide

/-- A level of the reset input gives the registers of reset, or keeps all of them. -/
theorem driveReset_inv {s : State} (h : s.Inv) (asserted : Bool) : (s.driveReset asserted).Inv := by
  cases asserted with
  | true => exact invAtReset
  | false => exact h

/-- Settles O49: the three things a step can do keep the invariant. -/
theorem stepKeepsInv : Obligations.StepKeepsInv := by
  intro s t hs h
  rcases step_cases h with rfl | ⟨asserted, rest, -, rfl⟩ | ⟨r, rest, -, hx⟩
  · exact hs
  · exact driveReset_inv (s := s.withInputs rest) hs asserted
  · exact exec_inv (s := s.withInputs rest) hs hx

/-! ERR. -/

/-- A wide write that does not cover 0x38 keeps STATUS. -/
theorem memWrite_status_outside (n : Nat) : ∀ (s : State) (a : Nat) (v : Word64),
    (0x38 < a ∨ a + n ≤ 0x38) → (memWrite s a v n).status = s.status := by
  induction n with
  | zero => exact fun _ _ _ _ => rfl
  | succ n ih =>
    intro s a v h
    rw [memWrite, ih _ _ _ (by omega), wbyte_status, if_neg (by omega)]

/-- A wide write at 0x38 writes its lowest byte to STATUS. -/
theorem memWrite_status_at (n : Nat) (s : State) (v : Word64) :
    (memWrite s 0x38 v (n + 1)).status = statusWritten (byteOf v 0) s.status := by
  rw [memWrite, memWrite_status_outside n _ _ _ (by omega), wbyte_status, if_pos rfl]

/-- ERR after a write at 0x38. -/
theorem memWrite_err_at (n : Nat) (s : State) (v : Word64) :
    (memWrite s 0x38 v (n + 1)).err = (s.err && !v.getLsbD 7) := by
  rw [State.err, memWrite_status_at, statusWritten_err, byteOf_bit, State.err]
  simp

/-- A command never clears ERR, and one that ends with a code other than 0 sets it. -/
theorem exec_command_err {i : Instr} (hi : i.isCommand = true) (s : State) :
    ∃ t, exec i s = .next t ∧ (t.code ≠ 0#4 → t.err = true) ∧ (s.err = true → t.err = true) := by
  rcases exec_command_cases hi s with ⟨u, e, hu, -⟩ | ⟨c, -, e⟩
  · have err : u.complete.err = s.err := by rw [State.complete_err, State.err, hu, State.err]
    exact ⟨_, e, by simp, err.trans⟩
  · exact ⟨_, e, by simp, by simp⟩

/-- An aligned access covers 0x38, a multiple of every width, only as its first byte. -/
theorem aligned_covers_status {off n : Nat} (hn : n ∣ 8) (ha : off % n = 0) :
    off = 0x38 ∨ 0x38 < off ∨ off + n ≤ 0x38 := by
  by_cases below : off < 0x38
  · have gap : n ∣ 0x38 - off :=
      Nat.dvd_sub (hn.trans (by decide)) (Nat.dvd_of_mod_eq_zero ha)
    have := Nat.le_of_dvd (by omega) gap
    omega
  · omega

/-- A write that clears ERR is a write of a 1 to bit 7 at 0x38. -/
theorem writeWindow_clears_err {off : Byte} {n : Nat} {v : Word64} {s t : State} (hn : n ∣ 8)
    (h : writeWindow off n v s = .next t) (hs : s.err = true) (ht : t.err = false) :
    off = 0x38#8 ∧ v.getLsbD 7 = true := by
  rcases writeWindow_cases off n v s with ⟨ha, e⟩ | ⟨-, e⟩ <;> cases e.symm.trans h
  rcases aligned_covers_status hn ha with at38 | outside
  · obtain ⟨m, rfl⟩ := Nat.exists_eq_succ_of_ne_zero (n := n) (by rintro rfl; contradiction)
    rw [at38, memWrite_err_at, hs] at ht
    exact ⟨BitVec.eq_of_toNat_eq at38, by simpa using ht⟩
  · rw [State.err, memWrite_status_outside n s _ v outside] at ht
    cases hs.symm.trans ht

/-- An instruction that clears ERR is a store at 0x38 whose bit 7 is 1. -/
theorem exec_clears_err {i : Instr} {s t : State} (h : exec i s = .next t) (hs : s.err = true)
    (ht : t.err = false) : clearsErr i = true := by
  rcases exec_cases i with ⟨j, hj, -, e⟩ | e | ⟨off, n, e⟩ | ⟨off, n, v, hn, hc, e⟩ <;> rw [e s] at h
  · obtain ⟨u, hu, -, keeps⟩ := exec_command_err hj s
    cases hu.symm.trans h
    exact absurd (keeps hs) (by simp [ht])
  · cases h
    simp at ht
  · rcases readWindow_cases off n s with ⟨-, e⟩ | ⟨-, e⟩ <;> cases e.symm.trans h
    exact absurd hs (by simpa [State.err] using ht)
  · obtain ⟨rfl, hv⟩ := writeWindow_clears_err hn h hs ht
    rw [hc, hv]
    rfl

/-- Settles O44: commands by their two ends, the byte write by what STATUS gets, a step by the three
things it can do. -/
theorem errIsSticky : Obligations.ErrIsSticky := by
  refine ⟨fun i s hi => exec_command_err hi s, fun s x hx => ?_, fun s t h hs ht => ?_⟩
  · exact ⟨_, rfl, by rw [show (0x38#8 : Byte).toNat = 0x38 from rfl, memWrite_err_at]; simp [hx]⟩
  · rcases step_cases h with rfl | ⟨asserted, rest, ha, rfl⟩ | ⟨r, rest, ha, hx⟩
    · exact absurd hs (by simp [ht])
    · cases asserted with
      | true => exact .inl ⟨rest, ha⟩
      | false => exact absurd hs (by simpa [State.err] using ht)
    · exact .inr ⟨r, rest, ha, exec_clears_err (s := s.withInputs rest) hx hs ht⟩

end Sys2Proof.Machine
end

section
/-! PROOFS. Reset and the step (10_state.md R41; 60_exceptions.md R215, R216). -/

namespace Sys2Proof.Machine

open Sys2Proof.Claims

theorem reset_allRegistersZero : AllRegistersZero State.reset := by
  simp [AllRegistersZero, State.reset]

/-- Settles O1: the zeroes are reset's own, and VALIDATE fails there for the version nibble 0. -/
theorem resetLeavesEveryRegisterZero : Obligations.ResetLeavesEveryRegisterZero :=
  ⟨reset_allRegistersZero, _, rfl, State.fail_code .invalidVersion State.reset⟩

/-- With no input a step is idle. -/
theorem step_idle {s : State} (h : s.inputs = []) : step s = .next s := by
  simp only [step, State.nextAction, h]

/-- Settles O4: out of reset the next access is performed, and an empty queue leaves the block idle. -/
theorem stepPerformsTheDecodedAccess : Obligations.StepPerformsTheDecodedAccess :=
  ⟨fun _ _ _ released queue => step_access released queue, fun _ empty => step_idle empty⟩

end Sys2Proof.Machine
end

section
/-! PROOFS. The bytes the window holds, key bytes among them: what a host write does to them, and that
they tell two states apart (20_memory.md R51, R57, R58, R60). -/

namespace Sys2Proof.Machine

open Sys2Proof.Claims

theorem storedByte_key0 (s : State) (j : Nat) (h : j < 8) :
    storedByte s (0x10 + j) = byteOf s.key0 j := by
  rw [storedByte, if_pos (by omega), Nat.add_sub_cancel_left, byteOf]

theorem storedByte_key1 (s : State) (j : Nat) (h : j < 8) :
    storedByte s (0x18 + j) = byteOf s.key1 j := by
  rw [storedByte, if_neg (by omega), if_pos (by omega), Nat.add_sub_cancel_left, byteOf]

theorem storedByte_eq_rbyte (s : State) (a : Nat) (h : a < 0x10 ∨ 0x20 ≤ a) :
    storedByte s a = rbyte s a := by
  rw [storedByte, if_neg (by omega), if_neg (by omega)]

/-- An offset is a byte of KEY0, a byte of KEY1, or outside the key. -/
theorem offset_key_cases (a : Nat) :
    (∃ j < 8, a = 0x10 + j) ∨ (∃ j < 8, a = 0x18 + j) ∨ (a < 0x10 ∨ 0x20 ≤ a) := by
  by_cases h0 : 0x10 ≤ a ∧ a < 0x18
  · exact .inl ⟨a - 0x10, by omega, by omega⟩
  by_cases h1 : 0x18 ≤ a ∧ a < 0x20
  · exact .inr (.inl ⟨a - 0x18, by omega, by omega⟩)
  · exact .inr (.inr (by omega))

/-! One byte write. -/

theorem storedByte_wbyte_other (s : State) {a b : Nat} (x : Byte) (h : a ≠ b) :
    storedByte (wbyte s a x) b = storedByte s b := by
  rcases offset_key_cases b with ⟨j, hj, rfl⟩ | ⟨j, hj, rfl⟩ | hb
  · rw [storedByte_key0 _ _ hj, storedByte_key0 _ _ hj, key0_wbyte _ _ _ _ hj, if_neg h]
  · rw [storedByte_key1 _ _ hj, storedByte_key1 _ _ hj, key1_wbyte _ _ _ _ hj, if_neg h]
  · rw [storedByte_eq_rbyte _ _ hb, storedByte_eq_rbyte _ _ hb, rbyte_wbyte_other _ _ _ _ h]

theorem storedByte_wbyte_writable (s : State) {a : Nat} (x : Byte) (h : Writable a) :
    storedByte (wbyte s a x) a = x := by
  rcases offset_key_cases a with ⟨j, hj, rfl⟩ | ⟨j, hj, rfl⟩ | ha
  · rw [storedByte_key0 _ _ hj, key0_wbyte _ _ _ _ hj, if_pos rfl]
  · rw [storedByte_key1 _ _ hj, key1_wbyte _ _ _ _ hj, if_pos rfl]
  · rw [storedByte_eq_rbyte _ _ ha, rbyte_wbyte_same]
    unfold Writable at h
    omega

theorem wbyte_of_not_writable (s : State) {a : Nat} (x : Byte) (h : ¬ Writable a) (h' : a ≠ 0x38) :
    wbyte s a x = s := by
  apply wbyte_ignored
  unfold Writable at h
  omega

theorem statusRead_statusWritten (x st : Byte) :
    statusRead (statusWritten x st) =
      if x.getLsbD 7 then statusRead st &&& 0x7F#8 else statusRead st := by
  unfold statusWritten statusRead
  split
  · rw [BitVec.and_assoc, BitVec.and_assoc, BitVec.and_comm 0x7F#8]
  · rfl

/-- A byte write does to its own byte what R57 says. -/
theorem writtenByte_wbyte (s : State) (a : Nat) (x : Byte) :
    WrittenByte a x (storedByte s a) (storedByte (wbyte s a x) a) := by
  refine ⟨storedByte_wbyte_writable s x, fun at38 => ?_, fun h h' => ?_⟩
  · subst at38
    exact statusRead_statusWritten x s.status
  · rw [wbyte_of_not_writable s x h h']

/-! Wide writes. -/

theorem storedByte_memWrite_outside (n : Nat) : ∀ (s : State) (a : Nat) (v : Word64) (b : Nat),
    (b < a ∨ a + n ≤ b) → storedByte (memWrite s a v n) b = storedByte s b := by
  induction n with
  | zero => exact fun _ _ _ _ _ => rfl
  | succ n ih =>
    intro s a v b h
    rw [memWrite, ih _ _ _ _ (by omega), storedByte_wbyte_other _ _ (by omega)]

/-- Each covered byte is written with its own byte of the data, by itself. -/
theorem writtenByte_memWrite (n : Nat) : ∀ (s : State) (a : Nat) (v : Word64) (b : Nat),
    a ≤ b → b < a + n →
    WrittenByte b (byteOf v (b - a)) (storedByte s b) (storedByte (memWrite s a v n) b) := by
  induction n with
  | zero => intros; omega
  | succ n ih =>
    intro s a v b hab hbn
    rw [memWrite]
    by_cases first : b = a
    · subst first
      rw [Nat.sub_self, storedByte_memWrite_outside n _ _ _ _ (by omega)]
      exact writtenByte_wbyte s b _
    · have later := ih (wbyte s a (byteOf v 0)) (a + 1) (v >>> 8) b (by omega) (by omega)
      rwa [storedByte_wbyte_other _ _ (Ne.symm first), byteOf_ushiftRight,
        show b - (a + 1) + 1 = b - a by omega] at later

theorem memWrite_stored (off : Byte) (n : Nat) (v : Word64) (s : State) :
    Stored off n v s (memWrite s off.toNat v n) :=
  ⟨memWrite_frame rfl, memWrite_status n s _ v,
    fun a _ => writtenByte_memWrite n s _ v a, fun a _ => storedByte_memWrite_outside n s _ v a⟩

/-- A wide write that covers neither a writable byte nor STATUS does nothing. -/
theorem memWrite_of_not_writable (n : Nat) : ∀ (s : State) (a : Nat) (v : Word64),
    (∀ b, a ≤ b → b < a + n → ¬ Writable b ∧ b ≠ 0x38) → memWrite s a v n = s := by
  induction n with
  | zero => exact fun _ _ _ _ => rfl
  | succ n ih =>
    intro s a v h
    obtain ⟨first, first'⟩ := h a (by omega) (by omega)
    rw [memWrite, wbyte_of_not_writable s _ first first',
      ih s _ _ fun b hab hbn => h b (by omega) (by omega)]

/-! The stored bytes tell states apart. -/

/-- Two values of STATUS that a read does not tell apart, and that agree but for ERR, are equal. -/
theorem status_ext {st st' : Byte} (read : statusRead st = statusRead st')
    (low : st &&& 0x7F#8 = st' &&& 0x7F#8) : st = st' := by
  have parts : ∀ x : Byte, x = statusRead x ||| (x &&& 0x7F#8) := by decide
  rw [parts st, read, low, ← parts st']

/-- States that hold the same bytes, and agree on what a host write cannot change, are equal. -/
theorem eq_of_storedBytes {s t : State}
    (frame : t = { s with id := t.id, key0 := t.key0, key1 := t.key1, din := t.din,
                          status := t.status, strlen := t.strlen, str := t.str, msg := t.msg })
    (low : t.status &&& 0x7F#8 = s.status &&& 0x7F#8)
    (bytes : ∀ a, a < 256 → storedByte t a = storedByte s a) : t = s := by
  have reads : ∀ a, a < 256 → (a < 0x10 ∨ 0x20 ≤ a) → rbyte t a = rbyte s a := fun a ha out => by
    rw [← storedByte_eq_rbyte t a out, bytes a ha, storedByte_eq_rbyte s a out]
  have id : t.id = s.id := Vector.ext fun j hj => by
    rw [← rbyte_id t j hj, reads j (by omega) (by omega), rbyte_id s j hj]
  have key0 : t.key0 = s.key0 := word_ext_bytes fun j hj => by
    rw [← storedByte_key0 t j hj, bytes _ (by omega), storedByte_key0 s j hj]
  have key1 : t.key1 = s.key1 := word_ext_bytes fun j hj => by
    rw [← storedByte_key1 t j hj, bytes _ (by omega), storedByte_key1 s j hj]
  have din : t.din = s.din := word_ext_bytes fun j hj => by
    rw [← rbyte_din t j hj, reads _ (by omega) (by omega), rbyte_din s j hj]
  have status : t.status = s.status := status_ext (reads 0x38 (by omega) (by omega)) low
  have strlen : t.strlen = s.strlen := reads 0x39 (by omega) (by omega)
  have str : t.str = s.str := Vector.ext fun j hj => by
    rw [← rbyte_str t j hj, reads _ (by omega) (by omega), rbyte_str s j hj]
  have msg : t.msg = s.msg := Vector.ext fun j hj => by
    rw [← rbyte_msg t j hj, reads _ (by omega) (by omega), rbyte_msg s j hj]
  rw [frame, id, key0, key1, din, status, strlen, str, msg]

/-- Writing a byte again leaves what the first write left. -/
theorem writtenByte_again {a : Nat} {x old new new' : Byte} (first : WrittenByte a x old new)
    (again : WrittenByte a x new new') : new' = new := by
  obtain ⟨writable, status, kept⟩ := first
  obtain ⟨writable', status', kept'⟩ := again
  by_cases h : Writable a
  · rw [writable' h, writable h]
  by_cases at38 : a = 0x38
  · rw [status' at38, status at38]
    split
    · rw [BitVec.and_assoc, BitVec.and_self]
    · rfl
  · exact kept' h at38

/-- Storing the same bytes again changes nothing more. -/
theorem stored_again {off : Byte} {n : Nat} {v : Word64} {s t u : State}
    (first : Stored off n v s t) (again : Stored off n v t u) : u = t := by
  obtain ⟨-, -, covered, -⟩ := first
  obtain ⟨frame, low, covered', outside'⟩ := again
  refine eq_of_storedBytes frame low fun a ha => ?_
  by_cases inside : off.toNat ≤ a ∧ a < off.toNat + n
  · exact writtenByte_again (covered a ha inside.1 inside.2) (covered' a ha inside.1 inside.2)
  · exact outside' a ha (by omega)

end Sys2Proof.Machine
end

section
/-! PROOFS. The host transactions (20_memory.md R51 to R60; 45_control.md R182 to R190;
70_reset_and_hazards.md R243). -/

namespace Sys2Proof.Machine

open Sys2Proof.Claims

/-! The map. -/

theorem statusRead_toNat (st : Byte) :
    (statusRead st).toNat = (if st.getLsbD 7 then 128 else 0) + (st.extractLsb' 0 4).toNat := by
  revert st; decide

/-- Settles O13: what each offset reads, a byte of a word taken as a number. -/
theorem windowShowsEachRegisterAtItsOffsets : Obligations.WindowShowsEachRegisterAtItsOffsets := by
  intro s
  refine ⟨fun j h => ?_, fun j h => rbyte_key s _ (by omega) (by omega), fun j h => ?_,
    fun j h => ?_, fun j h => ?_, statusRead_toNat s.status, rfl, rfl,
    fun j h h' => rbyte_reserved s j (by omega), rbyte_str s,
    fun j h h' => rbyte_reserved s j (by omega), rbyte_msg s,
    fun j h => rbyte_reserved s j (by omega)⟩
  · rw [Nat.zero_add, rbyte_id s j h]
  · rw [rbyte_din s j h, byteOf_toNat]
  · rw [rbyte_digest s j h, byteOf_toNat]
  · rw [rbyte_res s j h, byteOf_toNat]

/-! Byte accesses, which are always aligned. -/

theorem exec_lb (off : Byte) (s : State) :
    exec (.lb off) s = .next (s.respond ((rbyte s off.toNat).setWidth 64)) := by
  rcases readWindow_cases off 1 s with ⟨-, e⟩ | ⟨h, -⟩
  · refine Eq.trans e ?_
    simp [memRead]
  · exact absurd (Nat.mod_one _) h

theorem exec_sb (off x : Byte) (s : State) :
    exec (.sb off x) s = .next (wbyte s off.toNat x) := by
  rcases writeWindow_cases off 1 (x.setWidth 64) s with ⟨-, e⟩ | ⟨h, -⟩
  · refine Eq.trans e ?_
    rw [memWrite, memWrite, byteOf, Laws.extractLsb'_setWidth_64 x (by decide)]
  · exact absurd (Nat.mod_one _) h

theorem exec_lb_of_reads_zero {off : Byte} {s : State} (h : rbyte s off.toNat = 0#8) :
    exec (.lb off) s = .next { s with rdata := some 0#64 } := by
  rw [exec_lb, h]
  rfl

theorem exec_sb_ignored {off : Byte} (x : Byte) (s : State)
    (h : (0x28 ≤ off.toNat ∧ off.toNat < 0x38) ∨ (0x3A ≤ off.toNat ∧ off.toNat < 0x40) ∨
      (0x64 ≤ off.toNat ∧ off.toNat < 0x80) ∨ 0xA0 ≤ off.toNat) :
    exec (.sb off x) s = .next s := by
  rw [exec_sb, wbyte_ignored s _ x h]

/-- Settles O14: the byte write ignores reserved and read-only bytes, reserved and write-only bytes
read 0, and at 0x38 the write is STATUS's own. -/
theorem reservedReadOnlyAndWriteOnlyBytes : Obligations.ReservedReadOnlyAndWriteOnlyBytes := by
  refine ⟨fun s off x h => ⟨exec_lb_of_reads_zero (rbyte_reserved s _ ?_), exec_sb_ignored x s ?_⟩,
    fun s off x h => exec_sb_ignored x s ?_, fun s off h => exec_lb_of_reads_zero ?_, fun s x => ?_⟩
  · bv_omega
  · bv_omega
  · bv_omega
  · rcases h with key | cmd
    · exact rbyte_key s _ (by bv_omega) (by bv_omega)
    · exact rbyte_reserved s _ (by bv_omega)
  · exact ⟨_, exec_sb 0x38#8 x s, rfl, statusWritten_err x s.status, statusWritten_keeps x s.status⟩

/-! Which access an instruction is, and when it stops. -/

theorem isCommand_of_accessOf_none {i : Instr} (h : accessOf i = none) : i.isCommand = true := by
  cases i
  case lb | lh | lw | ld | sb | sh | sw | sd => contradiction
  all_goals rfl

/-- A host transaction reads its bytes, writes them, or, over CMD as one word, issues. -/
theorem exec_of_accessOf {i : Instr} {off : Byte} {n : Nat} (h : accessOf i = some (off, n))
    (s : State) :
    exec i s = readWindow off n s ∨ (∃ v, exec i s = writeWindow off n v s) ∨
    (off = cmdOffset ∧ n = 4 ∧ ∃ w, exec i s = issue w s) := by
  cases i <;> cases h
  case lb | lh | lw | ld => exact .inl rfl
  case sb | sh | sd => exact .inr (.inl ⟨_, rfl⟩)
  case sw v =>
    by_cases cmd : off = cmdOffset
    · exact .inr (.inr ⟨cmd, rfl, v, if_pos cmd⟩)
    · exact .inr (.inl ⟨_, if_neg cmd⟩)

theorem exec_command_answers {i : Instr} (h : i.isCommand = true) (s : State) :
    ∃ t, exec i s = .next t := by
  rcases exec_command_cases h s with ⟨u, e, -⟩ | ⟨c, -, e⟩ <;> exact ⟨_, e⟩

theorem issue_answers (w : BitVec 32) (s : State) : ∃ t, issue w s = .next t := by
  rcases issue_cases w with ⟨j, -, hj, e⟩ | e
  · rw [e]
    exact exec_command_answers hj s
  · exact ⟨_, e s⟩

/-- Settles O11: an access is a bus error exactly where it is misaligned, and a command, issued or
not, always answers. -/
theorem onlyMisalignedAccessesStop : Obligations.OnlyMisalignedAccessesStop := by
  intro i s
  unfold misaligned
  match h : accessOf i with
  | none => simpa using exec_command_answers (isCommand_of_accessOf_none h) s
  | some (off, n) =>
    simp only [decide_eq_true_eq]
    rcases exec_of_accessOf h s with e | ⟨v, e⟩ | ⟨rfl, rfl, w, e⟩ <;> rw [e]
    · rcases readWindow_cases off n s with ⟨ha, e⟩ | ⟨ha, e⟩ <;> simp [ha, e]
    · rcases writeWindow_cases off n v s with ⟨ha, e⟩ | ⟨ha, e⟩ <;> simp [ha, e]
    · exact issue_answers w s

/-! Stores. -/

/-- The headers with WE = 1 are the stores, by SIZE (30_encoding.md R82, R87). -/
theorem decodeRequest_stores (off : Byte) (d : Word64) :
    decodeRequest ⟨0b100#3 ++ off, d⟩ = .sb off (d.extractLsb' 0 8) ∧
    decodeRequest ⟨0b101#3 ++ off, d⟩ = .sh off (d.extractLsb' 0 16) ∧
    decodeRequest ⟨0b110#3 ++ off, d⟩ = .sw off (d.extractLsb' 0 32) ∧
    decodeRequest ⟨0b111#3 ++ off, d⟩ = .sd off d := by
  refine ⟨?_, ?_, ?_, ?_⟩
  · exact show decodeRequest ⟨busHeader true 0#2 off, d⟩ = _ by simp [decodeRequest]
  · exact show decodeRequest ⟨busHeader true 1#2 off, d⟩ = _ by simp [decodeRequest]
  · exact show decodeRequest ⟨busHeader true 2#2 off, d⟩ = _ by simp [decodeRequest]
  · exact show decodeRequest ⟨busHeader true 3#2 off, d⟩ = _ by simp [decodeRequest]

theorem writeWindow_stored (off : Byte) (n : Nat) (v : Word64) (s : State) :
    if off.toNat % n ≠ 0 then writeWindow off n v s = .fault .busError
    else ∃ t, writeWindow off n v s = .next t ∧ Stored off n v s t := by
  rcases writeWindow_cases off n v s with ⟨h, e⟩ | ⟨h, e⟩
  · rw [if_neg (not_not.2 h)]
    exact ⟨_, e, memWrite_stored off n v s⟩
  · rwa [if_pos h]

theorem exec_sw_cmd (w : BitVec 32) (s : State) : exec (.sw cmdOffset w) s = issue w s := by
  rw [exec, execSw, if_pos rfl]

theorem exec_sw_of_ne {off : Byte} (h : off ≠ cmdOffset) (v : BitVec 32) (s : State) :
    exec (.sw off v) s = writeWindow off 4 (v.setWidth 64) s := if_neg h

/-- A failure in the claims' terms. -/
theorem fail_failedWith (c : Code) (s : State) : FailedWith (codeBits c).toNat s (s.fail c) :=
  ⟨rfl, congrArg BitVec.toNat (State.fail_code c s), State.fail_err c s,
    statusFailed_reserved c s.status⟩

/-- Settles O15: every store but the word at CMD is a window write, and that word is issued. -/
theorem storesWriteExactlyTheBytesTheyCover : Obligations.StoresWriteExactlyTheBytesTheyCover := by
  refine ⟨decodeRequest_stores, fun s off v => ?_, fun s off v => writeWindow_stored off 2 _ s,
    fun s off v => ?_, fun s off v => writeWindow_stored off 8 v s⟩
  · have stored := writeWindow_stored off 1 (v.setWidth 64) s
    rwa [if_neg (by omega)] at stored
  · by_cases cmd : off = cmdOffset
    · subst cmd
      rw [if_neg (by decide), if_pos rfl, exec_sw_cmd]
      exact ⟨fun i hi => issue_ok hi s, fun e he => ⟨_, issue_error he s, fail_failedWith _ s⟩⟩
    · rw [if_neg cmd, exec_sw_of_ne cmd]
      exact writeWindow_stored off 4 _ s

/-- A narrow write within CMD does nothing. -/
theorem writeWindow_within_cmd {off : Byte} {n : Nat} (v : Word64) (s : State)
    (aligned : off.toNat % n = 0) (low : 0x3C ≤ off.toNat) (high : off.toNat + n ≤ 0x40) :
    writeWindow off n v s = .next s := by
  rcases writeWindow_cases off n v s with ⟨-, e⟩ | ⟨h, -⟩
  · rw [e, memWrite_of_not_writable]
    intro b hb hb'
    unfold Writable
    omega
  · exact absurd aligned h

/-- Settles O16: the bytes of CMD, and those from 0x3A on beside it, take no write. -/
theorem otherWidthsOverCmdIssueNothing : Obligations.OtherWidthsOverCmdIssueNothing := by
  refine ⟨fun s off x low high => ?_, fun s x => ⟨?_, ?_⟩, fun s v => ?_⟩
  · exact writeWindow_within_cmd _ s (Nat.mod_one _) (by bv_omega) (by bv_omega)
  · exact writeWindow_within_cmd (off := 0x3C#8) (n := 2) _ s (by decide) (by decide) (by decide)
  · exact writeWindow_within_cmd (off := 0x3E#8) (n := 2) _ s (by decide) (by decide) (by decide)
  · have tail : ∀ u w, memWrite u 0x3A w 6 = u := fun u w =>
      memWrite_of_not_writable 6 u 0x3A w fun b hb hb' => by unfold Writable; omega
    have written : memWrite s 0x38 v 8 =
        { s with status := statusWritten (byteOf v 0) s.status, strlen := byteOf v 1 } := by
      rw [memWrite, memWrite, tail, byteOf_ushiftRight]
      rfl
    refine ⟨memWrite s 0x38 v 8, rfl, ?_, memWrite_err_at 7 s v, memWrite_status 8 s 0x38 v⟩
    rw [written]
    rfl

/-- A window write that answers, repeated, changes nothing more. -/
theorem writeWindow_again {off : Byte} {n : Nat} {v : Word64} {s t : State}
    (h : writeWindow off n v s = .next t) : writeWindow off n v t = .next t := by
  have first := writeWindow_stored off n v s
  have again := writeWindow_stored off n v t
  split at first
  · cases h.symm.trans first
  next aligned =>
    rw [if_neg aligned] at again
    obtain ⟨t', e, stored⟩ := first
    obtain ⟨u, e', stored'⟩ := again
    cases h.symm.trans e
    rw [e', stored_again stored stored']

/-- Settles O17: every store but the word at CMD is a window write. -/
theorem repeatingAStoreIsIdempotent : Obligations.RepeatingAStoreIsIdempotent := by
  refine ⟨fun s off v t h => writeWindow_again h, fun s off v t h => writeWindow_again h,
    fun s off v t cmd h => ?_, fun s off v t h => writeWindow_again h⟩
  rw [exec_sw_of_ne cmd] at h ⊢
  exact writeWindow_again h

end Sys2Proof.Machine
end

section
/-! PROOFS. Which registers a command writes (the writers' column of 10_state.md section 1), and the
window as it is read across a command. -/

namespace Sys2Proof.Machine

open Sys2Proof.Claims

/-- A command may turn the first state into the second: KEY0, KEY1, DIN, MSG and the host's side are
kept, and every other register but STATUS is kept unless the command is listed as its writer. -/
structure WritesOnlyListed (i : Instr) (s t : State) : Prop where
  frame : t = { s with id := t.id, digest := t.digest, res := t.res, status := t.status,
                       strlen := t.strlen, slen := t.slen, str := t.str, lanes := t.lanes }
  id : writesId i = false → t.id = s.id
  digest : writesDigest i = false → t.digest = s.digest
  res : writesRes i = false → t.res = s.res
  hash : writesLanes i = false → t.slen = s.slen ∧ t.lanes = s.lanes
  text : writesText i = false → t.strlen = s.strlen ∧ t.str = s.str

theorem WritesOnlyListed.refl (i : Instr) (s : State) : WritesOnlyListed i s s :=
  ⟨rfl, fun _ => rfl, fun _ => rfl, fun _ => rfl, fun _ => ⟨rfl, rfl⟩, fun _ => ⟨rfl, rfl⟩⟩

/-- STATUS is every command's to write. -/
theorem WritesOnlyListed.withStatus {i : Instr} {s u : State} (h : WritesOnlyListed i s u)
    (st : Byte) : WritesOnlyListed i s { u with status := st } := by
  obtain ⟨frame, id, digest, res, hash, text⟩ := h
  refine ⟨?_, id, digest, res, hash, text⟩
  rw [frame]

theorem fail_writesOnlyListed (i : Instr) (c : Code) (s : State) :
    WritesOnlyListed i s (s.fail c) := (WritesOnlyListed.refl i s).withStatus _

theorem complete_writesOnlyListed (i : Instr) (s : State) :
    WritesOnlyListed i s s.complete := (WritesOnlyListed.refl i s).withStatus _

theorem writesOnlyListed_withId {i : Instr} (h : writesId i = true) (s : State) (x : Identifier) :
    WritesOnlyListed i s { s with id := x }.complete :=
  ⟨rfl, fun h' => by simp [h] at h', fun _ => rfl, fun _ => rfl, fun _ => ⟨rfl, rfl⟩,
    fun _ => ⟨rfl, rfl⟩⟩

/-- Each command answers, and by its own meaning writes only what the table lists for it. -/
theorem exec_command_writesOnlyListed {i : Instr} (hi : i.isCommand = true) (s : State) :
    ∃ t, exec i s = .next t ∧ WritesOnlyListed i s t := by
  cases i
  case nop => exact ⟨_, rfl, complete_writesOnlyListed _ s⟩
  case sipinit | sipblk =>
    exact ⟨_, rfl, rfl, fun _ => rfl, fun _ => rfl, fun _ => rfl, nofun, fun _ => ⟨rfl, rfl⟩⟩
  case sipfin =>
    exact ⟨_, rfl, rfl, fun _ => rfl, nofun, fun _ => rfl, nofun, fun _ => ⟨rfl, rfl⟩⟩
  case siphash len =>
    simp only [exec, execSiphash]
    split
    · exact ⟨_, rfl, fail_writesOnlyListed _ _ s⟩
    · exact ⟨_, rfl, rfl, fun _ => rfl, nofun, fun _ => rfl, nofun, fun _ => ⟨rfl, rfl⟩⟩
  case getver =>
    exact ⟨_, rfl, rfl, fun _ => rfl, fun _ => rfl, nofun, fun _ => ⟨rfl, rfl⟩, fun _ => ⟨rfl, rfl⟩⟩
  case setver | setvar | newid => exact ⟨_, rfl, writesOnlyListed_withId rfl s _⟩
  case validate =>
    simp only [exec, execValidate]
    split
    · exact ⟨_, rfl, fail_writesOnlyListed _ _ s⟩
    · exact ⟨_, rfl, complete_writesOnlyListed _ s⟩
  case parse =>
    simp only [exec, execParse]
    split
    · exact ⟨_, rfl, fail_writesOnlyListed _ _ s⟩
    · split
      · exact ⟨_, rfl, fail_writesOnlyListed _ _ s⟩
      · exact ⟨_, rfl, writesOnlyListed_withId rfl s _⟩
  case parseraw =>
    simp only [exec, execParseraw]
    split
    · exact ⟨_, rfl, fail_writesOnlyListed _ _ s⟩
    · exact ⟨_, rfl, writesOnlyListed_withId rfl s _⟩
  case format =>
    exact ⟨_, rfl, rfl, fun _ => rfl, fun _ => rfl, fun _ => rfl, fun _ => ⟨rfl, rfl⟩, nofun⟩
  case mask => exact ⟨_, rfl, rfl, fun _ => rfl, nofun, nofun, nofun, fun _ => ⟨rfl, rfl⟩⟩
  case encode | decode => exact ⟨_, rfl, rfl, nofun, nofun, fun _ => rfl, nofun, fun _ => ⟨rfl, rfl⟩⟩
  case lb | lh | lw | ld | sb | sh | sw | sd => contradiction

/-- A byte outside STATUS and the listed registers reads as before: the register behind it is kept. -/
theorem WritesOnlyListed.rbyte_eq {i : Instr} {s t : State} (h : WritesOnlyListed i s t) {a : Nat}
    (ha : mayWriteOffset i a = false) : rbyte t a = rbyte s a := by
  obtain ⟨frame, id, digest, res, hash, text⟩ := h
  simp only [mayWriteOffset, Bool.or_eq_false_iff] at ha
  obtain ⟨⟨⟨⟨⟨status', id'⟩, digest'⟩, res'⟩, hash'⟩, text'⟩ := ha
  apply rbyte_congr
  · intro low
    rw [id (by simpa [low] using id')]
  · intros
    rw [frame]
  · intro low high
    rw [digest (by simpa [low, high] using digest')]
  · intro low high
    rw [res (by simpa [low, high] using res')]
  · rintro rfl
    contradiction
  · rintro rfl
    exact (text (by simpa using text')).1
  · rintro rfl
    exact (hash (by simpa using hash')).1
  · intro high low
    rw [(text (by simpa [low, show a < 0x64 by omega] using text')).2]
  · intros
    rw [frame]

/-- Settles O46: a command writes only listed registers, and a window byte shows one register. -/
theorem commandsKeepUnlistedWindowBytes : Obligations.CommandsKeepUnlistedWindowBytes := by
  intro i s hi
  obtain ⟨t, e, listed⟩ := exec_command_writesOnlyListed hi s
  exact ⟨t, e, fun a ha => listed.rbyte_eq ha⟩

end Sys2Proof.Machine
end

section
/-! PROOFS. The encoder and the decoder undo each other (30_encoding.md R80 to R87). -/

namespace Sys2Proof.Machine

open Sys2Proof.Laws Sys2Proof.Claims

/-! Decoding what the encoder writes. -/

/-- Settles O7: a command's fields are read back from its word and a transaction's from its header and
data; a count below 8 and a length below 256 fit their operand bits. -/
theorem decodeOfEncodeIsIdentity : Obligations.DecodeOfEncodeIsIdentity := by
  intro i wf
  cases i
  case sipfin n =>
    have hn : n < 8 := of_decide_eq_true wf
    clear wf
    revert n
    decide
  case siphash len =>
    have hl : len < 256 := of_decide_eq_true wf
    simp [encode, decode, decodeCommand, Nat.mod_eq_of_lt hl]
  case setver v =>
    clear wf
    revert v
    decide
  case lb | lh | lw | ld => simp [encode, decode, decodeRequest]
  case sb v | sh v | sw v | sd v =>
    simp [encode, decode, decodeRequest, extractLsb'_setWidth_64 v]
  all_goals rfl

/-! Encoding what the decoders answer. -/

/-- Form N3: the count is the whole operand byte. -/
theorem ofNat_of_formN3 : ∀ imm : Byte, imm.extractLsb' 3 5 = 0#5 →
    BitVec.ofNat 8 (imm.extractLsb' 0 3).toNat = imm := by decide

/-- Form V4: the nibble is the whole operand byte. -/
theorem setWidth_of_formV4 : ∀ imm : Byte, imm.extractLsb' 4 4 = 0#4 →
    (imm.extractLsb' 0 4).setWidth 8 = imm := by decide

theorem encode_of_decodeCommand {w : BitVec 32} {i : Instr} (h : decodeCommand w = .ok i) :
    i.wellFormed = true ∧ encode i = .command w := by
  obtain ⟨rsv, rows⟩ := decodeCommand_ok h
  rw [word_of_fields rsv]
  rcases rows with ⟨imm, rows⟩ | ⟨opc, imm, rfl⟩ | ⟨opc, imm, rfl⟩ | ⟨opc, rfl⟩
  · rw [imm]
    rcases rows with ⟨opc, rfl⟩ | ⟨opc, rfl⟩ | ⟨opc, rfl⟩ | ⟨opc, rfl⟩ | ⟨opc, rfl⟩ | ⟨opc, rfl⟩ |
      ⟨opc, rfl⟩ | ⟨opc, rfl⟩ | ⟨opc, rfl⟩ | ⟨opc, rfl⟩ | ⟨opc, rfl⟩ | ⟨opc, rfl⟩ | ⟨opc, rfl⟩
    all_goals exact ⟨rfl, by rw [opc]; rfl⟩
  · exact ⟨decide_eq_true (BitVec.isLt _), by rw [encode, ofNat_of_formN3 _ imm, opc]⟩
  · exact ⟨rfl, by rw [encode, setWidth_of_formV4 _ imm, opc]⟩
  · exact ⟨decide_eq_true (BitVec.isLt _), by rw [encode, BitVec.ofNat_toNat, BitVec.setWidth_eq, opc]⟩

theorem encode_of_decodeRequest (r : Request) :
    (decodeRequest r).isCommand = false ∧ ∃ d, encode (decodeRequest r) = .bus ⟨r.header, d⟩ := by
  rw [header_of_fields r]
  rcases decodeRequest_cases r with ⟨we, size, e⟩ | ⟨we, size, e⟩ | ⟨we, size, e⟩ | ⟨we, size, e⟩ |
    ⟨we, size, e⟩ | ⟨we, size, e⟩ | ⟨we, size, e⟩ | ⟨we, size, e⟩
  all_goals
    rw [e, we, size]
    exact ⟨rfl, _, rfl⟩

/-- Settles O8: a word that decodes is the fields of its answer's row, a header the fields of its
transaction. -/
theorem encodeOfDecodeIsIdentity : Obligations.EncodeOfDecodeIsIdentity := by
  refine ⟨fun w i h => ?_, encode_of_decodeRequest⟩
  obtain ⟨wf, e⟩ := encode_of_decodeCommand h
  exact ⟨wf, decodeCommand_isCommand h, e⟩

/-- Settles O10: each of the eight words is read by its own fields. -/
theorem sampleWordsDecodeAsTheSpecSays : Obligations.SampleWordsDecodeAsTheSpecSays := by
  unfold Obligations.SampleWordsDecodeAsTheSpecSays
  decide

end Sys2Proof.Machine
end

section
/-! PROOFS. Every 32-bit word is illegal or the one command whose row matches it (30_encoding.md R86,
R87). -/

namespace Sys2Proof.Machine

open Sys2Proof.Laws Sys2Proof.Claims

/-! The clauses of an illegal word, read in the fields of the word. -/

theorem rsvField_toNat (w : BitVec 32) : (rsvField w).toNat = w.toNat / 2 ^ 16 := by
  rw [rsvField, BitVec.extractLsb'_toNat, Nat.shiftRight_eq_div_pow]
  omega

theorem opcField_toNat (w : BitVec 32) : (opcField w).toNat = w.toNat % 256 := by
  rw [opcField, BitVec.extractLsb'_toNat, Nat.shiftRight_zero]

theorem immField_toNat (w : BitVec 32) : (immField w).toNat = w.toNat / 2 ^ 8 % 2 ^ 8 := by
  rw [immField, BitVec.extractLsb'_toNat, Nat.shiftRight_eq_div_pow]

theorem immField_high5_toNat (w : BitVec 32) :
    ((immField w).extractLsb' 3 5).toNat = w.toNat / 2 ^ 11 % 2 ^ 5 := by
  rw [BitVec.extractLsb'_toNat, Nat.shiftRight_eq_div_pow, immField_toNat]
  omega

theorem immField_high4_toNat (w : BitVec 32) :
    ((immField w).extractLsb' 4 4).toNat = w.toNat / 2 ^ 12 % 2 ^ 4 := by
  rw [BitVec.extractLsb'_toNat, Nat.shiftRight_eq_div_pow, immField_toNat]
  omega

/-- The assigned opcodes (30_encoding.md R87). -/
def assignedOpcodes : List Byte :=
  [0x00#8, 0x10#8, 0x11#8, 0x12#8, 0x13#8, 0x20#8, 0x21#8, 0x22#8, 0x23#8, 0x24#8, 0x30#8, 0x31#8,
    0x32#8, 0x40#8, 0x41#8, 0x42#8]

theorem illegalWord_iff_fields (w : BitVec 32) :
    IllegalWord w ↔
      rsvField w ≠ 0#16 ∨ opcField w ∉ assignedOpcodes ∨
      (opcField w = 0x12#8 ∧ (immField w).extractLsb' 3 5 ≠ 0#5) ∨
      (opcField w = 0x21#8 ∧ (immField w).extractLsb' 4 4 ≠ 0#4) ∨
      (opcField w ∉ [0x12#8, 0x13#8, 0x21#8] ∧ immField w ≠ 0#8) := by
  simp only [IllegalWord, assignedOpcodes, List.mem_cons, List.not_mem_nil, or_false, ne_eq,
    ← BitVec.toNat_inj, rsvField_toNat, opcField_toNat, immField_toNat, immField_high5_toNat,
    immField_high4_toNat, BitVec.toNat_ofNat]

theorem decodeCommand_unassigned {w : BitVec 32} (rsv : rsvField w = 0#16)
    (opc : opcField w ∉ assignedOpcodes) : decodeCommand w = .error .unassignedOpcode := by
  unfold decodeCommand
  rw [if_neg (not_not.2 rsv)]
  split
  case h_17 => rfl
  all_goals
    rename opcField w = _ => assigned
    rw [assigned] at opc
    exact absurd (by decide) opc

/-- The decoder finds no command exactly where one of the three clauses of R86 holds. -/
theorem decodeCommand_error_iff (w : BitVec 32) :
    (∃ e, decodeCommand w = .error e) ↔ IllegalWord w := by
  rw [illegalWord_iff_fields]
  by_cases rsv : rsvField w = 0#16
  swap
  · simp [decodeCommand, rsv]
  by_cases assigned : opcField w ∈ assignedOpcodes
  · simp only [assignedOpcodes, List.mem_cons, List.not_mem_nil, or_false] at assigned
    rcases assigned with opc | opc | opc | opc | opc | opc | opc | opc | opc | opc | opc | opc |
      opc | opc | opc | opc
    all_goals simp [decodeCommand, rsv, opc, assignedOpcodes, decodeZ, decodeN3, decodeV4, ite_eq_iff]
  · exact iff_of_true ⟨_, decodeCommand_unassigned rsv assigned⟩ (.inr (.inl assigned))

/-! The rows. -/

/-- The word of every encodable instruction lies in its row. -/
theorem encode_matches_row : ∀ i, TableRow.Statement i
  | .nop => TableRow.nop
  | .sipinit => TableRow.sipinit
  | .sipblk => TableRow.sipblk
  | .sipfin n => TableRow.sipfin n
  | .siphash len => TableRow.siphash len
  | .getver => TableRow.getver
  | .setver v => TableRow.setver v
  | .setvar => TableRow.setvar
  | .validate => TableRow.validate
  | .newid => TableRow.newid
  | .parse => TableRow.parse
  | .parseraw => TableRow.parseraw
  | .format => TableRow.format
  | .mask => TableRow.mask
  | .encode => TableRow.encode
  | .decode => TableRow.decode
  | .lb off => TableRow.lb off
  | .lh off => TableRow.lh off
  | .lw off => TableRow.lw off
  | .ld off => TableRow.ld off
  | .sb off v => TableRow.sb off v
  | .sh off v => TableRow.sh off v
  | .sw off v => TableRow.sw off v
  | .sd off v => TableRow.sd off v

theorem row_of_decodeCommand {w : BitVec 32} {i : Instr} (h : decodeCommand w = .ok i) :
    w.toNat &&& i.row.mask = i.row.pattern := by
  obtain ⟨wf, e⟩ := encode_of_decodeCommand h
  have matched := encode_matches_row i wf
  rwa [e] at matched

theorem row_mem_commandRows {i : Instr} (h : i.isCommand = true) : i.row ∈ commandRows := by
  cases i
  case lb | lh | lw | ld | sb | sh | sw | sd => contradiction
  all_goals simp [commandRows, Instr.row]

/-- The pattern of a command row is an opcode, which its mask fixes. -/
theorem commandRows_opcode : ∀ row ∈ commandRows, row.mask % 2 ^ 8 = 2 ^ 8 - 1 ∧
    row.pattern % 2 ^ 8 = row.pattern := by decide

/-- No two command rows share an opcode. -/
theorem commandRows_pattern_inj : ∀ row ∈ commandRows, ∀ row' ∈ commandRows,
    row.pattern = row'.pattern → row = row' := by decide

/-- A command row matches only words of its own opcode. -/
theorem opcode_of_row {row : OpcodeRow} (h : row ∈ commandRows) {w : Nat}
    (matched : w &&& row.mask = row.pattern) : w % 2 ^ 8 = row.pattern := by
  obtain ⟨mask, pattern⟩ := commandRows_opcode row h
  calc w % 2 ^ 8 = w % 2 ^ 8 &&& row.mask % 2 ^ 8 := by
        rw [mask, Nat.and_two_pow_sub_one_eq_mod, Nat.mod_mod]
    _ = (w &&& row.mask) % 2 ^ 8 := (Nat.and_mod_two_pow ..).symm
    _ = row.pattern := by rw [matched, pattern]

/-- Settles O9: the decoder's failures are the illegal words, and two rows that match the same word
have its opcode in common. -/
theorem wordsAreOneCommandOrIllegal : Obligations.WordsAreOneCommandOrIllegal := by
  refine ⟨fun w illegal => ?_, fun w legal => ?_⟩
  · obtain ⟨e, h⟩ := (decodeCommand_error_iff w).2 illegal
    refine ⟨⟨e, h⟩, fun s => ⟨s.fail .illegalCommand, ?_, fail_failedWith .illegalCommand s⟩⟩
    rw [exec_sw_cmd, issue_error h]
  · cases h : decodeCommand w with
    | error e => exact absurd ((decodeCommand_error_iff w).1 ⟨e, h⟩) legal
    | ok i =>
      have own := row_of_decodeCommand h
      have mem := row_mem_commandRows (decodeCommand_isCommand h)
      refine ⟨i, rfl, mem, fun row hrow => ⟨fun matched => ?_, fun same => same ▸ own⟩⟩
      exact commandRows_pattern_inj row hrow i.row mem
        ((opcode_of_row hrow matched).symm.trans (opcode_of_row mem own))

end Sys2Proof.Machine
end

section
/-! PROOFS. What the placed access performs: the instruction it encodes, and a command only as a word
written to CMD (30_encoding.md R80, R82, R85, R91). -/

namespace Sys2Proof.Machine

open Sys2Proof.Laws Sys2Proof.Claims

/-! The request of either kind of word. -/

/-- The request that has an encoded word performed (30_encoding.md R85, R91). -/
def requestFor : Encoded → Request
  | .command w => issueRequest w
  | .bus r => r

theorem requestOf_eq (i : Instr) : requestOf i = requestFor (encode i) := by
  unfold requestOf requestFor
  cases encode i <;> rfl

/-- A number that the opcode table gives a word is placed as the request of that word. -/
theorem requestOfTable_eq {nbits w : Nat} {e : Encoded} (h : encodedOfTable nbits w = some e) :
    requestOfTable nbits w = requestFor e := by
  unfold encodedOfTable at h
  unfold requestOfTable
  split at h <;> split at h <;> cases h
  · rw [if_pos ‹_›]; rfl
  · rw [if_neg ‹_›]; rfl

theorem decodeTableWord_some {nbits w : Nat} {i : Instr} (h : decodeTableWord nbits w = some i) :
    ∃ e, encodedOfTable nbits w = some e ∧ decode e = .ok i := by
  unfold decodeTableWord at h
  split at h
  next e he =>
    refine ⟨e, he, ?_⟩
    cases hd : decode e with
    | ok j => simpa [hd, Except.toOption] using h
    | error c => simp [hd, Except.toOption] at h
  next => contradiction

/-- The request of a word performs the instruction the word decodes to. -/
theorem exec_requestFor {e : Encoded} {i : Instr} (h : decode e = .ok i) (s : State) :
    exec (decodeRequest (requestFor e)) s = exec i s := by
  cases e with
  | command w => rw [requestFor, decodeRequest_issueRequest, exec_sw_cmd, issue_ok h]
  | bus r =>
    injection h with h
    rw [requestFor, h]

/-- Settles O5: the placed request is of a word that decodes to the instruction, whether the encoder
wrote the word (O7) or the opcode table numbers it. -/
theorem stepRunsEveryEncodedInstruction : Obligations.StepRunsEveryEncodedInstruction := by
  refine ⟨fun i s rest wf released queue => ?_, fun nbits w i s h => ?_⟩
  · rw [step_access released queue, requestOf_eq]
    exact exec_requestFor (decodeOfEncodeIsIdentity i wf) _
  · obtain ⟨e, he, hd⟩ := decodeTableWord_some h
    rw [State.withFetchWord, requestOfTable_eq he, step_access rfl rfl]
    exact exec_requestFor hd _

/-! Transactions that issue nothing. -/

/-- The header 0x63C is WE = 1, SIZE = 2, OFF = CMD. -/
theorem decodeRequest_cmd {r : Request} (h : r.header = 0x63C#11) :
    decodeRequest r = .sw cmdOffset (r.wdata.extractLsb' 0 32) := by
  obtain ⟨-, -, sw, -⟩ := decodeRequest_stores cmdOffset r.wdata
  obtain ⟨header, wdata⟩ := r
  cases h
  exact sw

theorem exec_decodeRequest_read {r : Request} (read : r.we = false) (s : State) :
    exec (decodeRequest r) s = readWindow r.off (2 ^ r.size.toNat) s := by
  rcases decodeRequest_cases r with ⟨-, size, e⟩ | ⟨-, size, e⟩ | ⟨-, size, e⟩ | ⟨-, size, e⟩ |
    ⟨we, -⟩ | ⟨we, -⟩ | ⟨we, -⟩ | ⟨we, -⟩
  case inl | inr.inl | inr.inr.inl | inr.inr.inr.inl => rw [e, size]; rfl
  all_goals simp [read] at we

/-- A write that is not the word at CMD stores the bits of WDATA its width uses. -/
theorem exec_decodeRequest_write {r : Request} (write : r.we = true) (h : r.header ≠ 0x63C#11)
    (s : State) :
    exec (decodeRequest r) s = writeWindow r.off (2 ^ r.size.toNat)
      ((r.wdata.extractLsb' 0 (8 * 2 ^ r.size.toNat)).setWidth 64) s := by
  rcases decodeRequest_cases r with ⟨we, -⟩ | ⟨we, -⟩ | ⟨we, -⟩ | ⟨we, -⟩ |
    ⟨-, size, e⟩ | ⟨-, size, e⟩ | ⟨-, size, e⟩ | ⟨-, size, e⟩
  case inl | inr.inl | inr.inr.inl | inr.inr.inr.inl => simp [write] at we
  · rw [e, size]; rfl
  · rw [e, size]; rfl
  · have off : r.off ≠ cmdOffset := fun cmd => h (by rw [header_of_fields r, write, size, cmd]; rfl)
    rw [e, size, exec_sw_of_ne off]
    rfl
  · rw [e, size]
    have whole : (r.wdata.extractLsb' 0 64).setWidth 64 = r.wdata := by simp
    exact congrArg (fun v => writeWindow r.off 8 v s) whole.symm

/-- A byte within the low `n` bits of a word is a byte of those bits alone. -/
theorem extractLsb'_truncated (v : Word64) {n k : Nat} (h : k + 8 ≤ n) :
    ((v.extractLsb' 0 n).setWidth 64).extractLsb' k 8 = v.extractLsb' k 8 := by
  apply BitVec.eq_of_getLsbD_eq
  intro i hi
  have inside : k + i < n := by omega
  by_cases top : k + i < 64
  · simp [inside, top]
  · simp [BitVec.getLsbD_of_ge v (k + i) (by omega)]

/-- A store of `n` bytes reads no bit of its data above them. -/
theorem stored_of_truncated {off : Byte} {n : Nat} {v : Word64} {s t : State}
    (h : Stored off n ((v.extractLsb' 0 (8 * n)).setWidth 64) s t) : Stored off n v s t := by
  obtain ⟨frame, low, covered, outside⟩ := h
  refine ⟨frame, low, fun a ha hlo hhi => ?_, outside⟩
  rw [← extractLsb'_truncated v (show 8 * (a - off.toNat) + 8 ≤ 8 * n by omega)]
  exact covered a ha hlo hhi

theorem size_toNat (r : Request) : r.size.toNat = r.header.toNat / 2 ^ 8 % 4 := by
  rw [Request.size, BitVec.extractLsb'_toNat, Nat.shiftRight_eq_div_pow]

/-- A read that answers changes nothing but the answer. -/
theorem readWindow_next {off : Byte} {n : Nat} {s t : State} (h : readWindow off n s = .next t) :
    t = { s with rdata := t.rdata } := by
  rcases readWindow_cases off n s with ⟨-, e⟩ | ⟨-, e⟩ <;> cases e.symm.trans h
  rfl

/-- A window write that answers stored exactly its bytes. -/
theorem writeWindow_next {off : Byte} {n : Nat} {v : Word64} {s t : State}
    (h : writeWindow off n v s = .next t) : Stored off n v s t := by
  rcases writeWindow_cases off n v s with ⟨-, e⟩ | ⟨-, e⟩ <;> cases e.symm.trans h
  exact memWrite_stored off n v s

/-- Settles O6: the header 0x63C issues its word; every other header reads the window or writes it. -/
theorem onlyAWordWriteToCmdIssues : Obligations.OnlyAWordWriteToCmdIssues := by
  refine ⟨fun s r rest released queue cmd => ?_, fun s r rest t released queue other h => ?_⟩
  · rw [step_access released queue, decodeRequest_cmd cmd, exec_sw_cmd]
    exact ⟨fun i hi => issue_ok hi _, fun e he => ⟨_, issue_error he _, fail_failedWith _ _⟩⟩
  · rw [step_access released queue] at h
    split
    next write =>
      rw [exec_decodeRequest_write write other] at h
      rw [← size_toNat]
      exact stored_of_truncated (writeWindow_next h)
    next read =>
      rw [exec_decodeRequest_read (Bool.eq_false_of_not_eq_true read)] at h
      exact readWindow_next h

end Sys2Proof.Machine
end

section
/-! PROOFS. The commands of the KeyedHash family, each by itself, and the round they share
(41_keyed_hash.md R100 to R105). -/

namespace Sys2Proof.Machine

open Sys2Proof.Claims

/-! The round. -/

theorem rotl64_bit (x : Word64) {r i : Nat} (hr : r ≤ 64) (hi : i < 64) :
    (rotl64 x r).getLsbD i = if i < r then x.getLsbD (64 - r + i) else x.getLsbD (i - r) := by
  rw [rotl64, BitVec.getLsbD_or, BitVec.getLsbD_shiftLeft, BitVec.getLsbD_ushiftRight]
  split
  next wrapped => simp [wrapped]
  next moved => simp [hi, moved, BitVec.getLsbD_of_ge x (64 - r + i) (by omega)]

/-- A rotation is undone by the rotation that completes the word. -/
theorem rotl64_rotl64 (x : Word64) {r q : Nat} (h : r + q = 64) : rotl64 (rotl64 x r) q = x := by
  apply BitVec.eq_of_getLsbD_eq
  intro i hi
  rw [rotl64_bit _ (by omega) hi]
  split
  · rw [rotl64_bit _ (by omega) (by omega), if_neg (by omega), show 64 - q + i - r = i by omega]
  · rw [rotl64_bit _ (by omega) (by omega), if_pos (by omega), show 64 - r + (i - q) = i by omega]

/-- The statements of SipRound undone, the last one first. -/
def sipRoundInverse (l : Lanes) : Lanes :=
  let v2 := rotl64 l.v2 32
  let v1 := rotl64 (l.v1 ^^^ v2) 47
  let v2 := v2 - v1
  let v3 := rotl64 (l.v3 ^^^ l.v0) 43
  let v0 := l.v0 - v3
  let v3 := rotl64 (v3 ^^^ v2) 48
  let v2 := v2 - v3
  let v0 := rotl64 v0 32
  let v1 := rotl64 (v1 ^^^ v0) 51
  let v0 := v0 - v1
  ⟨v0, v1, v2, v3⟩

theorem sipRoundInverse_sipRound (l : Lanes) : sipRoundInverse (sipRound l) = l := by
  simp [sipRound, sipRoundInverse, rotl64_rotl64]

theorem sipRound_sipRoundInverse (l : Lanes) : sipRound (sipRoundInverse l) = l := by
  simp [sipRound, sipRoundInverse, rotl64_rotl64]

/-- Settles O23: each statement of SipRound has an inverse. -/
theorem sipRoundIsABijection : Obligations.SipRoundIsABijection :=
  ⟨Function.bijective_iff_has_inverse.2
    ⟨sipRoundInverse, sipRoundInverse_sipRound, sipRound_sipRoundInverse⟩, by decide⟩

/-! The words and the ends of the commands. -/

/-- A command word as a number: the operand above the opcode. -/
theorem commandWord_ofNat (opc : Byte) {k : Nat} (h : k < 256) :
    commandWord opc (BitVec.ofNat 8 k) = BitVec.ofNat 32 (opc.toNat + 256 * k) := by
  have := opc.isLt
  apply BitVec.eq_of_toNat_eq
  rw [commandWord, BitVec.toNat_append, ← Nat.shiftLeft_add_eq_or_of_lt opc.isLt,
    BitVec.toNat_append, Nat.shiftLeft_eq]
  simp only [BitVec.toNat_ofNat, Nat.zero_mod, Nat.zero_shiftLeft, Nat.zero_or]
  omega

/-- The word of a command with the operand `k` decodes to the command. -/
theorem decodeCommand_of_operand {i : Instr} {opc : Byte} {k : Nat} (wf : i.wellFormed = true)
    (word : encode i = .command (commandWord opc (BitVec.ofNat 8 k))) (h : k < 256) :
    decodeCommand (BitVec.ofNat 32 (opc.toNat + 256 * k)) = .ok i := by
  have decoded := decodeOfEncodeIsIdentity i wf
  rwa [word, commandWord_ofNat _ h] at decoded

/-- A command that completes after writes that keep STATUS. -/
theorem completed_complete {s u : State} (h : u.status = s.status) : Completed s u.complete :=
  ⟨u.complete_code, by rw [State.complete_status, statusCompleted_high, h]⟩

/-- Settles O19: XOR with a constant again leaves the key word. -/
theorem sipinitStartsAHashFromTheKey : Obligations.SipinitStartsAHashFromTheKey := by
  have lane : ∀ c k : Word64, c ^^^ k ^^^ c = k := fun c k => by
    rw [BitVec.xor_comm c, BitVec.xor_assoc, BitVec.xor_self, BitVec.xor_zero]
  exact ⟨rfl, fun s => ⟨_, rfl, completed_complete rfl, rfl,
    lane _ s.key0, lane _ s.key1, lane _ s.key0, lane _ s.key1⟩⟩

/-- Settles O20: SIPBLK is the absorption of DIN, with the length in eight bits. -/
theorem sipblkAbsorbsDin : Obligations.SipblkAbsorbsDin :=
  ⟨rfl, fun s => ⟨_, rfl, completed_complete rfl, rfl, BitVec.toNat_add s.slen 8#8, rfl⟩⟩

/-- SIPFIN's block: the length byte above the low `n` bytes of DIN. -/
theorem finalBlock_tailOf_eq (len8 : Byte) (d : Word64) {n : Nat} (h : n < 8) :
    finalBlock len8 (tailOf d n) =
      BitVec.ofNat 64 (len8.toNat * 2 ^ 56 + d.toNat % 2 ^ (8 * n)) := by
  have tail := tailOf_toNat d n h
  have short : d.toNat % 2 ^ (8 * n) < 2 ^ 56 :=
    (Nat.mod_lt _ (Nat.two_pow_pos _)).trans_le (Nat.pow_le_pow_right (by decide) (by omega))
  rw [finalBlock_eq _ _ (by rwa [tail]), tail]

/-- Settles O21: the block is the one of the rule, and of DIN it holds the low `n` bytes alone. -/
theorem sipfinFinalizesWithTheTail : Obligations.SipfinFinalizesWithTheTail := by
  refine ⟨fun n hn => decodeCommand_of_operand (opc := 0x12#8) (decide_eq_true hn) rfl (by omega),
    fun s n hn => ⟨⟨_, rfl, completed_complete rfl, rfl, ?_, ?_, rfl⟩, fun d low =>
      ⟨_, _, rfl, rfl, ?_⟩⟩⟩
  · change (s.slen + BitVec.ofNat 8 n).toNat = _
    rw [BitVec.toNat_add, BitVec.toNat_ofNat, Nat.add_mod_mod]
  · change finalize (absorb (finalBlock (s.slen + BitVec.ofNat 8 n) (tailOf s.din n)) s.lanes) = _
    rw [finalBlock_tailOf_eq _ _ hn]
    rfl
  · have tail : tailOf d n = tailOf s.din n :=
      BitVec.eq_of_toNat_eq (by rw [tailOf_toNat _ _ hn, tailOf_toNat _ _ hn, low])
    rw [tail]
    rfl

/-- SIPHASH of a message MSG begins with is the whole hash of the message. -/
theorem exec_siphash {s : State} {m : List Byte} (h : m.length ≤ 32)
    (msg : ∀ j (hj : j < m.length), m[j] = s.msg[j]) :
    exec (.siphash m.length) s = .next (s.hashMessage m).complete := by
  have message : s.msg.toList.take m.length = m :=
    List.ext_getElem (by simp [h]) fun j _ hj => by simp [msg j hj]
  rw [exec, execSiphash, if_neg (Nat.not_lt.2 h), message]

/-- Settles O22: up to the size of MSG the whole hash of its first bytes, above it a failure. -/
theorem siphashDigestsTheMessageBuffer : Obligations.SiphashDigestsTheMessageBuffer := by
  refine ⟨fun len h => decodeCommand_of_operand (opc := 0x13#8) (decide_eq_true h) rfl h,
    fun s m h msg => ?_, fun s len long => ⟨_, if_pos long, fail_failedWith .invalidOperand s⟩⟩
  have slen : (BitVec.ofNat 8 m.length).toNat = m.length := by
    rw [BitVec.toNat_ofNat, Nat.mod_eq_of_lt (by omega)]
  exact ⟨_, exec_siphash h msg, completed_complete rfl, rfl, rfl, slen, rfl⟩

end Sys2Proof.Machine
end

section
/-! PROOFS. The streaming hash: a hash in progress, what each of its accesses does to it, and the run
of all of them (41_keyed_hash.md R102 to R104, R106, R107). -/

namespace Sys2Proof.Machine

open Sys2Proof.Claims

/-! Runs of the accesses of a list of instructions. -/

/-- Out of reset, the accesses of the instructions run through, one step each, from any state that
meets `P` to one that meets `Q`, and the further inputs are left. -/
def RunsFromTo (is : List Instr) (P Q : State → Prop) : Prop :=
  ∀ s rest, s.inReset = false → s.inputs = accessesOf is ++ rest → P s →
    ∃ t, Host.Core.run core is.length s = .next t ∧ t.inReset = false ∧ t.inputs = rest ∧ Q t

theorem RunsFromTo.refl (P : State → Prop) : RunsFromTo [] P P :=
  fun s _ released queue hs => ⟨s, rfl, released, queue, hs⟩

theorem RunsFromTo.append {is js : List Instr} {P Q R : State → Prop} (first : RunsFromTo is P Q)
    (second : RunsFromTo js Q R) : RunsFromTo (is ++ js) P R := by
  intro s rest released queue hs
  obtain ⟨t, run₁, released₁, queue₁, ht⟩ :=
    first s (accessesOf js ++ rest) released (by rw [queue]; simp [accessesOf]) hs
  obtain ⟨u, run₂, done⟩ := second t rest released₁ queue₁ ht
  exact ⟨u, by rw [List.length_append, run_add run₁, run₂], done⟩

/-- One access performs its instruction, with the access off the queue. -/
theorem runsFromTo_of_exec {i : Instr} {P Q : State → Prop} (wf : i.wellFormed = true)
    (h : ∀ s rest, P s → ∃ t, exec i (s.withInputs rest) = .next t ∧ Q t) : RunsFromTo [i] P Q := by
  intro s rest released queue hs
  obtain ⟨t, ht, hq⟩ := h s rest hs
  obtain ⟨inReset, inputs⟩ := exec_keeps_inputs ht
  have first : step s = .next t :=
    (stepRunsEveryEncodedInstruction.1 i s rest wf released queue).trans ht
  exact ⟨t, run_succ_of_step first 0, inReset.trans released, inputs, hq⟩

/-! The write of DIN. -/

/-- DIN stands behind the bytes 0x20 to 0x27 and no other. -/
theorem storedByte_withDin (s : State) (v : Word64) (a : Nat) :
    storedByte { s with din := v } a =
      if 0x20 ≤ a ∧ a < 0x28 then byteOf v (a - 0x20) else storedByte s a := by
  rcases offset_key_cases a with ⟨j, hj, rfl⟩ | ⟨j, hj, rfl⟩ | out
  · rw [if_neg (by omega), storedByte_key0 _ _ hj, storedByte_key0 _ _ hj]
  · rw [if_neg (by omega), storedByte_key1 _ _ hj, storedByte_key1 _ _ hj]
  rw [storedByte_eq_rbyte _ _ out, storedByte_eq_rbyte _ _ out]
  split
  next inside =>
    obtain ⟨j, rfl⟩ := Nat.exists_eq_add_of_le inside.1
    rw [rbyte_din _ _ (by omega), Nat.add_sub_cancel_left]
  next outside =>
    exact rbyte_congr s { s with din := v } a (fun _ => rfl)
      (fun lo hi => absurd ⟨lo, hi⟩ outside) (fun _ _ => rfl) (fun _ _ => rfl) (fun _ => rfl)
      (fun _ => rfl) (fun _ => rfl) (fun _ _ => rfl) (fun _ _ => rfl)

/-- SD 0x20 writes DIN and nothing else. -/
theorem exec_sd_din (v : Word64) (s : State) :
    exec (.sd 0x20#8 v) s = .next { s with din := v } := by
  obtain ⟨frame, low, covered, outside⟩ := memWrite_stored 0x20#8 8 v s
  refine congrArg Host.Outcome.next (eq_of_storedBytes (s := { s with din := v }) frame low ?_)
  intro a ha
  rw [storedByte_withDin s v a]
  split
  next inside => exact (covered a ha inside.1 inside.2).1 (.inl inside.2)
  next out =>
    refine outside a ha ?_
    change a < 0x20 ∨ 0x20 + 8 ≤ a
    omega

/-! The hash in progress. -/

/-- The lanes once the first `k` blocks of the message are absorbed (41_keyed_hash.md R106 step 2). -/
def blockLanes (m : List Byte) (k0 k1 : Word64) (k : Nat) : Lanes :=
  (List.range k).foldl (fun l i => absorb (messageBlock m i) l) (initLanes k0 k1)

theorem blockLanes_succ (m : List Byte) (k0 k1 : Word64) (k : Nat) :
    blockLanes m k0 k1 (k + 1) = absorb (messageBlock m k) (blockLanes m k0 k1 k) := by
  simp [blockLanes, List.range_succ]

theorem hashLanes_eq (m : List Byte) (k0 k1 : Word64) :
    hashLanes m k0 k1 =
      finalize (absorb (lastBlock m) (blockLanes m k0 k1 (m.length / 8))) := rfl

/-- The hash of the message under the key words is in progress: its first `k` blocks are absorbed. -/
structure HashInProgress (m : List Byte) (k0 k1 : Word64) (k : Nat) (s : State) : Prop where
  key0 : s.key0 = k0
  key1 : s.key1 = k1
  lanes : s.lanes = blockLanes m k0 k1 k
  slen : s.slen = BitVec.ofNat 8 (8 * k)

/-- The hash of the message under the key words has completed. -/
structure HashFinished (m : List Byte) (k0 k1 : Word64) (s : State) : Prop where
  key0 : s.key0 = k0
  key1 : s.key1 = k1
  lanes : s.lanes = hashLanes m k0 k1
  slen : s.slen = BitVec.ofNat 8 m.length
  digest : s.digest = siphash24 m k0 k1
  code : s.code = 0#4

/-- The last block is what SIPFIN absorbs: the length byte over the tail in DIN. -/
theorem finalBlock_tail_eq_lastBlock (m : List Byte) :
    finalBlock (BitVec.ofNat 8 (8 * (m.length / 8)) + BitVec.ofNat 8 (m.length % 8))
      (tailOf (le64 (m.drop (8 * (m.length / 8)))) (m.length % 8)) = lastBlock m := by
  have length : (m.drop (8 * (m.length / 8))).length = m.length % 8 := by
    rw [List.length_drop]; omega
  have fits : (le64 (m.drop (8 * (m.length / 8)))).toNat < 2 ^ (8 * (m.length % 8)) := by
    rw [← length]
    exact le64_lt _ (by omega)
  have tail : tailOf (le64 (m.drop (8 * (m.length / 8)))) (m.length % 8) =
      le64 (m.drop (8 * (m.length / 8))) :=
    BitVec.eq_of_toNat_eq (by rw [tailOf_toNat _ _ (by omega), Nat.mod_eq_of_lt fits])
  rw [tail, ← BitVec.ofNat_add, Nat.div_add_mod, lastBlock]

section
variable (m : List Byte) (k0 k1 : Word64)

theorem sipinit_runs :
    RunsFromTo [.sipinit] (fun s => s.key0 = k0 ∧ s.key1 = k1) (HashInProgress m k0 k1 0) := by
  refine runsFromTo_of_exec rfl fun s rest ⟨h0, h1⟩ => ⟨_, rfl, h0, h1, ?_, rfl⟩
  change initLanes s.key0 s.key1 = initLanes k0 k1
  rw [h0, h1]

/-- Writing DIN leaves the hash where it is. -/
theorem writeDin_runs (k : Nat) (b : Word64) :
    RunsFromTo [.sd 0x20#8 b] (HashInProgress m k0 k1 k)
      (fun s => HashInProgress m k0 k1 k s ∧ s.din = b) :=
  runsFromTo_of_exec rfl fun s rest ⟨h0, h1, lanes, slen⟩ =>
    ⟨_, exec_sd_din b (s.withInputs rest), ⟨h0, h1, lanes, slen⟩, rfl⟩

/-- SIPBLK absorbs the next block. -/
theorem sipblk_runs (k : Nat) :
    RunsFromTo [.sipblk] (fun s => HashInProgress m k0 k1 k s ∧ s.din = messageBlock m k)
      (HashInProgress m k0 k1 (k + 1)) := by
  refine runsFromTo_of_exec rfl fun s rest ⟨⟨h0, h1, lanes, slen⟩, din⟩ =>
    ⟨_, rfl, h0, h1, ?_, ?_⟩
  · change absorb s.din s.lanes = _
    rw [lanes, din, blockLanes_succ]
  · change s.slen + BitVec.ofNat 8 8 = _
    rw [slen, ← BitVec.ofNat_add, Nat.mul_succ]

/-- SIPFIN ends the hash whose full blocks are absorbed. -/
theorem sipfin_runs :
    RunsFromTo [.sipfin (m.length % 8)]
      (fun s => HashInProgress m k0 k1 (m.length / 8) s ∧
        s.din = le64 (m.drop (8 * (m.length / 8))))
      (HashFinished m k0 k1) := by
  have wf : (Instr.sipfin (m.length % 8)).wellFormed = true :=
    decide_eq_true (Nat.mod_lt _ (by decide))
  refine runsFromTo_of_exec wf fun s rest ⟨⟨h0, h1, lanes, slen⟩, din⟩ => ?_
  have final : finalize (absorb (finalBlock (s.slen + BitVec.ofNat 8 (m.length % 8))
      (tailOf s.din (m.length % 8))) s.lanes) = hashLanes m k0 k1 := by
    rw [slen, din, lanes, finalBlock_tail_eq_lastBlock, hashLanes_eq]
  have length : s.slen + BitVec.ofNat 8 (m.length % 8) = BitVec.ofNat 8 m.length := by
    rw [slen, ← BitVec.ofNat_add, Nat.div_add_mod]
  exact ⟨_, rfl, h0, h1, final, length, congrArg digestOf final, State.complete_code _⟩

/-- The full blocks, each through DIN. -/
theorem blocks_run (k : Nat) :
    RunsFromTo ((List.range k).flatMap fun i => [.sd 0x20#8 (messageBlock m i), .sipblk])
      (HashInProgress m k0 k1 0) (HashInProgress m k0 k1 k) := by
  induction k with
  | zero => exact .refl _
  | succ k ih =>
    rw [List.range_succ, List.flatMap_append, List.flatMap_singleton]
    exact ih.append ((writeDin_runs m k0 k1 k _).append (sipblk_runs m k0 k1 k))

/-- The streaming hash runs from any state to the end of the hash. -/
theorem streamHash_runs :
    RunsFromTo (streamHash m) (fun s => s.key0 = k0 ∧ s.key1 = k1) (HashFinished m k0 k1) :=
  ((sipinit_runs m k0 k1).append (blocks_run m k0 k1 (m.length / 8))).append
    ((writeDin_runs m k0 k1 (m.length / 8) _).append (sipfin_runs m k0 k1))

end

/-- Settles O24: the accesses of the streaming hash run through, block by block, and what SIPFIN
absorbs is the last block of the one-shot hash. -/
theorem streamingHashEqualsOneShot : Obligations.StreamingHashEqualsOneShot := by
  intro m s rest released queue
  obtain ⟨t, run, -, inputs, h0, h1, lanes, slen, digest, code⟩ :=
    streamHash_runs m s.key0 s.key1 s rest released queue ⟨rfl, rfl⟩
  exact ⟨t, run, digest, lanes, by rw [slen, BitVec.toNat_ofNat], h0, h1, inputs, code⟩

end Sys2Proof.Machine
end

section
/-! PROOFS. The two marker fields of an identifier: what writing one leaves of each byte, and the
check of both (42_bitfield.md R120 to R124). -/

namespace Sys2Proof.Machine

open Sys2Proof.Claims

/-! The version nibble. -/

@[simp] theorem withVersion_byte6 (v : BitVec 4) (id : Identifier) :
    (withVersion v id)[6] = (v.setWidth 8 <<< 4) ||| (id[6] &&& 0x0F#8) :=
  Vector.getElem_set_self ..

theorem getElem_withVersion_of_ne (v : BitVec 4) (id : Identifier) {j : Nat} (hj : j < 16)
    (h : j ≠ 6) : (withVersion v id)[j] = id[j] :=
  Vector.getElem_set_ne _ _ h.symm

@[simp] theorem versionNibble_withVersion (v : BitVec 4) (id : Identifier) :
    versionNibble (withVersion v id) = v.toNat := by
  rw [versionNibble, withVersion_byte6]
  exact (versionByte v id[6]).1

theorem withVersion_low_nibble (v : BitVec 4) (id : Identifier) :
    (withVersion v id)[6].toNat % 16 = id[6].toNat % 16 := by
  rw [withVersion_byte6]
  exact (versionByte v id[6]).2.1

theorem withVersion_eq_self {v : BitVec 4} {id : Identifier} (h : versionNibble id = v.toNat) :
    withVersion v id = id := by
  rw [withVersion, (versionByte v id[6]).2.2 h, Vector.set_getElem_self]

/-- The version nibble widened to RES. -/
theorem versionOf_setWidth_toNat (id : Identifier) :
    ((versionOf id).setWidth 64).toNat = versionNibble id := by
  rw [BitVec.toNat_setWidth_of_le (by decide), versionOf_toNat, versionNibble]

/-! The variant bits. -/

@[simp] theorem withVariant_byte8 (id : Identifier) :
    (withVariant id)[8] = 0x80#8 ||| (id[8] &&& 0x3F#8) :=
  Vector.getElem_set_self ..

theorem getElem_withVariant_of_ne (id : Identifier) {j : Nat} (hj : j < 16) (h : j ≠ 8) :
    (withVariant id)[j] = id[j] :=
  Vector.getElem_set_ne _ _ h.symm

@[simp] theorem variantBits_withVariant (id : Identifier) : variantBits (withVariant id) = 2 := by
  rw [variantBits, withVariant_byte8]
  exact (variantByte id[8]).1

theorem withVariant_low_bits (id : Identifier) :
    (withVariant id)[8].toNat % 64 = id[8].toNat % 64 := by
  rw [withVariant_byte8]
  exact (variantByte id[8]).2.1

theorem withVariant_eq_self {id : Identifier} (h : variantBits id = 2) : withVariant id = id := by
  rw [withVariant, (variantByte id[8]).2.2 h, Vector.set_getElem_self]

/-! The two writes together. -/

@[simp] theorem versionNibble_withVariant (id : Identifier) :
    versionNibble (withVariant id) = versionNibble id := by
  rw [versionNibble, getElem_withVariant_of_ne id (by decide) (by decide), versionNibble]

/-- The two writes are to different bytes, and each reads its own byte alone. -/
theorem withVariant_withVersion (v : BitVec 4) (id : Identifier) :
    withVariant (withVersion v id) = withVersion v (withVariant id) := by
  rw [withVariant, getElem_withVersion_of_ne v id (by decide) (by decide), withVersion, withVersion,
    getElem_withVariant_of_ne id (by decide) (by decide), withVariant]
  exact Vector.set_comm _ _ (by decide)

/-! The check. -/

theorem versionValid_iff (id : Identifier) :
    versionValid id = true ↔ versionNibble id = 4 ∨ versionNibble id = 7 := by
  simp [versionValid, versionNibble, ← versionOf_toNat, ← BitVec.toNat_inj]

theorem variantValid_iff (id : Identifier) : variantValid id = true ↔ variantBits id = 2 := by
  simp [variantValid, variantBits, ← variantOf_toNat, ← BitVec.toNat_inj]

/-- The check by the two fields as numbers, the version first. -/
theorem checkId_eq (id : Identifier) :
    checkId id =
      if versionNibble id ≠ 4 ∧ versionNibble id ≠ 7 then some .invalidVersion
      else if variantBits id ≠ 2 then some .invalidVariant
      else none := by
  simp only [checkId, Bool.not_eq_true', ← Bool.not_eq_true, versionValid_iff, variantValid_iff,
    not_or, ne_eq]

theorem checkId_eq_none {id : Identifier} (h : ValidId id) : checkId id = none := by
  obtain ⟨version, variant⟩ := h
  rw [checkId_eq, if_neg (by omega), if_neg (not_not.2 variant)]

theorem validId_emptyId : ValidId emptyId := ⟨.inr rfl, rfl⟩

theorem versionOf_emptyId : versionOf emptyId = 7#4 := by decide

theorem emptyId_payload : ∀ j (h : j < 16), j ≠ 6 → j ≠ 8 → emptyId[j] = 0x00#8 := by decide

end Sys2Proof.Machine
end

section
/-! PROOFS. The commands of the BitfieldOps family and their laws (42_bitfield.md R121 to R126). -/

namespace Sys2Proof.Machine

open Sys2Proof.Claims

theorem exec_validate_of_fails {s : State} {c : Code} (h : checkId s.id = some c) :
    exec .validate s = .next (s.fail c) := by
  rw [exec, execValidate, h]

theorem exec_validate_of_passes {s : State} (h : checkId s.id = none) :
    exec .validate s = .next s.complete := by
  rw [exec, execValidate, h]

/-- Settles O25: RES is the nibble, widened. -/
theorem getverReadsTheVersionNibble : Obligations.GetverReadsTheVersionNibble :=
  ⟨rfl, fun s => ⟨_, rfl, completed_complete rfl, rfl, versionOf_setWidth_toNat s.id⟩⟩

/-- Settles O26: ID becomes `withVersion v` of itself. -/
theorem setverWritesTheVersionNibble : Obligations.SetverWritesTheVersionNibble := by
  refine ⟨fun v => decodeCommand_of_operand (opc := 0x21#8) rfl ?_ (by omega),
    fun s v => ⟨_, rfl, completed_complete rfl, rfl, versionNibble_withVersion v s.id,
      withVersion_low_nibble v s.id, fun _ => getElem_withVersion_of_ne v s.id,
      withVersion_eq_self⟩⟩
  rw [BitVec.ofNat_toNat, encode]

/-- Settles O27: ID becomes `withVariant` of itself. -/
theorem setvarForcesTheVariantBits : Obligations.SetvarForcesTheVariantBits :=
  ⟨rfl, fun s => ⟨_, rfl, completed_complete rfl, rfl, variantBits_withVariant s.id,
    withVariant_low_bits s.id, fun _ => getElem_withVariant_of_ne s.id, withVariant_eq_self⟩⟩

/-- Settles O28: the three outcomes are those of the check. -/
theorem validateChecksVersionThenVariant : Obligations.ValidateChecksVersionThenVariant := by
  refine ⟨rfl, fun s => ?_⟩
  have check := checkId_eq s.id
  split_ifs at check ⊢ with badVersion badVariant
  · exact ⟨_, exec_validate_of_fails check, fail_failedWith .invalidVersion s⟩
  · exact ⟨_, exec_validate_of_fails check, fail_failedWith .invalidVariant s⟩
  · exact ⟨_, exec_validate_of_passes check, completed_complete rfl, rfl⟩

/-- Settles O29: ID becomes the empty identifier. -/
theorem newidWritesTheEmptyIdentifier : Obligations.NewidWritesTheEmptyIdentifier :=
  ⟨rfl, fun _ => ⟨_, rfl, completed_complete rfl, rfl, rfl, rfl, emptyId_payload⟩⟩

/-- Settles O30: each law is one of the two writes, or of the empty identifier. -/
theorem bitfieldLawsHold : Obligations.BitfieldLawsHold := by
  refine ⟨fun s v => ?_, fun s v hv => ?_, fun s v => ?_, fun s => ?_⟩
  · exact ⟨_, _, rfl, rfl, (versionOf_setWidth_toNat _).trans (versionNibble_withVersion v s.id)⟩
  · have valid : ValidId (withVariant (withVersion v s.id)) := by
      refine ⟨?_, variantBits_withVariant _⟩
      rw [versionNibble_withVariant, versionNibble_withVersion]
      exact hv.imp (congrArg BitVec.toNat) (congrArg BitVec.toNat)
    exact ⟨_, _, _, rfl, rfl, exec_validate_of_passes (checkId_eq_none valid),
      State.complete_code _⟩
  · refine ⟨_, _, { s with id := withVariant (withVersion v s.id) }.complete.complete,
      rfl, rfl, rfl, ?_⟩
    rw [withVariant_withVersion]
    rfl
  · exact ⟨_, _, _, rfl, exec_validate_of_passes (checkId_eq_none validId_emptyId),
      State.complete_code _, rfl, congrArg (BitVec.setWidth 64) versionOf_emptyId⟩

end Sys2Proof.Machine
end

section
/-! PROOFS. The text form: hex digits, the positions of the 36 octets, and the text of an identifier
as the scan and the formatter see it (43_text_codec.md R140 to R142, R146). -/

namespace Sys2Proof.Machine

open Sys2Proof.Claims

/-! Hex digits. -/

/-- `hexval` finds exactly the digits, with their values. -/
theorem hexDigit_iff (c : Byte) (v : Nat) :
    HexDigit c v ↔ ∃ x, hexval c = some x ∧ x.toNat = v := by
  simp only [HexDigit, hexval, BitVec.le_def, BitVec.toNat_ofNat]
  split_ifs
  case neg =>
    simp only [false_and, exists_false, iff_false]
    omega
  all_goals
    simp only [Option.some.injEq, exists_eq_left', BitVec.toNat_setWidth, BitVec.toNat_sub,
      BitVec.toNat_add, BitVec.toNat_ofNat]
    omega

/-- Two octets read as a byte exactly where both are digits. -/
theorem hexPair_iff (c d b : Byte) :
    (∃ hi lo, HexDigit c hi ∧ HexDigit d lo ∧ b.toNat = 16 * hi + lo) ↔
      ((hexval c).isSome = true ∧ (hexval d).isSome = true) ∧ hexPair c d = b := by
  have append : ∀ x y : BitVec 4, (x ++ y).toNat = 16 * x.toNat + y.toNat := by decide
  simp only [hexDigit_iff, hexPair, Option.isSome_iff_exists, ← BitVec.toNat_inj]
  constructor
  · rintro ⟨_, _, ⟨x, hx, rfl⟩, ⟨y, hy, rfl⟩, hb⟩
    exact ⟨⟨⟨x, hx⟩, ⟨y, hy⟩⟩, by simp only [hx, hy, Option.getD_some, append, hb]⟩
  · rintro ⟨⟨⟨x, hx⟩, ⟨y, hy⟩⟩, hb⟩
    refine ⟨_, _, ⟨x, hx, rfl⟩, ⟨y, hy, rfl⟩, ?_⟩
    rw [← hb, hx, hy, Option.getD_some, Option.getD_some, append]

theorem lowerDigit_hexchar (x : BitVec 4) : LowerDigit (hexchar x) x.toNat := by
  revert x
  unfold LowerDigit
  decide

theorem hexDigit_of_lowerDigit {c : Byte} {v : Nat} (h : LowerDigit c v) : HexDigit c v := by
  unfold LowerDigit at h
  unfold HexDigit
  omega

theorem lowerDigit_unique {c d : Byte} {v : Nat} (hc : LowerDigit c v) (hd : LowerDigit d v) :
    c = d := by
  unfold LowerDigit at hc hd
  apply BitVec.eq_of_toNat_eq
  omega

theorem lowerDigit_range {c : Byte} {v : Nat} (h : LowerDigit c v) :
    (0x30#8 ≤ c ∧ c ≤ 0x39#8) ∨ (0x61#8 ≤ c ∧ c ≤ 0x66#8) := by
  unfold LowerDigit at h
  simp only [BitVec.le_def, BitVec.toNat_ofNat]
  omega

/-! Positions. -/

/-- The digit positions are the two of each byte. -/
theorem mem_digitPositions_iff : ∀ p : Fin 36,
    p ∈ digitPositions ↔ ∃ k : Fin 16, p = D[2 * k.val] ∨ p = D[2 * k.val + 1] := by
  decide

/-- What holds at the two positions of every byte holds at every digit position. -/
theorem forall_digitPositions_iff {P : Fin 36 → Prop} :
    (∀ p ∈ digitPositions, P p) ↔ ∀ k : Fin 16, P D[2 * k.val] ∧ P D[2 * k.val + 1] := by
  simp only [mem_digitPositions_iff]
  refine ⟨fun h k => ⟨h _ ⟨k, .inl rfl⟩, h _ ⟨k, .inr rfl⟩⟩, ?_⟩
  rintro h p ⟨k, rfl | rfl⟩
  · exact (h k).1
  · exact (h k).2

/-- The hyphens and the two digits of every byte are all 36 positions. -/
theorem forall_positions {P : Fin 36 → Prop} (hyphens : ∀ p ∈ hyphenPositions, P p)
    (digits : ∀ k : Fin 16, P D[2 * k.val] ∧ P D[2 * k.val + 1]) (p : Fin 36) : P p := by
  have covered : ∀ p : Fin 36, p ∈ hyphenPositions ∨ p ∈ digitPositions := by decide
  exact (covered p).elim (hyphens p) (forall_digitPositions_iff.2 digits p)

theorem hyphenated_iff (t : Text) : Hyphenated t ↔ ∀ p ∈ hyphenPositions, t[p] = hyphen := by
  simp [Hyphenated, hyphenPositions, hyphen]

/-- The shape the scan checks, position by position. -/
theorem textShape_iff (t : Text) :
    textShape t = true ↔ Hyphenated t ∧ ∀ k : Fin 16,
      (hexval t[D[2 * k.val]]).isSome = true ∧ (hexval t[D[2 * k.val + 1]]).isSome = true := by
  rw [← forall_digitPositions_iff (P := fun p => (hexval t[p]).isSome = true), hyphenated_iff]
  simp only [textShape, Bool.and_eq_true, List.all_eq_true, beq_iff_eq]

/-! The bytes of a text. -/

theorem textBytes_eq_ofFn (t : Text) :
    textBytes t = .ofFn fun k : Fin 16 => hexPair t[D[2 * k.val]] t[D[2 * k.val + 1]] := rfl

theorem textBytes_eq_iff (t : Text) (b : Identifier) :
    textBytes t = b ↔ ∀ k : Fin 16, hexPair t[D[2 * k.val]] t[D[2 * k.val + 1]] = b[k] := by
  rw [textBytes_eq_ofFn, Vector.ext_iff, Fin.forall_iff]
  simp

/-- What `Parsed` asks is what the scan checks and answers. -/
theorem parsed_iff (s : State) (b : Identifier) :
    Parsed s b ↔ s.strlen.toNat = 36 ∧ textShape s.str = true ∧ textBytes s.str = b := by
  simp only [Parsed, hexPair_iff, textShape_iff, textBytes_eq_iff, forall_and, and_assoc]

/-! The text of an identifier. -/

/-- Every octet of the text is a hyphen or a lowercase digit. -/
theorem octet_of_textOf {t : Text} {id : Identifier} (h : TextOf t id) :
    ∀ p : Fin 36, t[p] = hyphen ∨ ∃ v, LowerDigit t[p] v := by
  obtain ⟨hyphens, digits⟩ := h
  exact forall_positions (fun p hp => .inl ((hyphenated_iff t).1 hyphens p hp))
    (fun k => ⟨.inr ⟨_, (digits k).1⟩, .inr ⟨_, (digits k).2⟩⟩)

/-- An identifier has one lowercase text. -/
theorem textOf_unique {t u : Text} {id : Identifier} (ht : TextOf t id) (hu : TextOf u id) :
    t = u := by
  obtain ⟨hyphensT, digitsT⟩ := ht
  obtain ⟨hyphensU, digitsU⟩ := hu
  have octets : ∀ p : Fin 36, t[p] = u[p] := by
    refine forall_positions (fun p hp => ?_) (fun k => ⟨?_, ?_⟩)
    · rw [(hyphenated_iff t).1 hyphensT p hp, (hyphenated_iff u).1 hyphensU p hp]
    · exact lowerDigit_unique (digitsT k).1 (digitsU k).1
    · exact lowerDigit_unique (digitsT k).2 (digitsU k).2
  exact Vector.ext fun j hj => octets ⟨j, hj⟩

/-- The text of an identifier reads as that identifier. -/
theorem parsed_of_textOf {s : State} {id : Identifier} (len : s.strlen.toNat = 36)
    (h : TextOf s.str id) : Parsed s id := by
  obtain ⟨hyphens, digits⟩ := h
  exact ⟨len, hyphens, fun k => ⟨_, _, hexDigit_of_lowerDigit (digits k).1,
    hexDigit_of_lowerDigit (digits k).2, (Nat.div_add_mod _ 16).symm⟩⟩

theorem lowerDigit_hexHigh (b : Byte) : LowerDigit (hexHigh b) (b.toNat / 16) := by
  have nibble : (b.extractLsb' 4 4).toNat = b.toNat / 16 := by
    rw [BitVec.extractLsb'_toNat, Nat.shiftRight_eq_div_pow]
    omega
  exact nibble ▸ lowerDigit_hexchar _

theorem lowerDigit_hexLow (b : Byte) : LowerDigit (hexLow b) (b.toNat % 16) :=
  BitVec.extractLsb'_toNat 0 4 b ▸ lowerDigit_hexchar _

theorem formatId_digits (id : Identifier) : ∀ k : Fin 16,
    (formatId id)[D[2 * k.val]] = hexHigh id[k] ∧
      (formatId id)[D[2 * k.val + 1]] = hexLow id[k] := by
  intro k
  fin_cases k <;> exact ⟨rfl, rfl⟩

theorem textOf_formatId (id : Identifier) : TextOf (formatId id) id := by
  refine ⟨⟨rfl, rfl, rfl, rfl⟩, fun k => ?_⟩
  obtain ⟨high, low⟩ := formatId_digits id k
  rw [high, low]
  exact ⟨lowerDigit_hexHigh _, lowerDigit_hexLow _⟩

end Sys2Proof.Machine
end

section
/-! PROOFS. The commands of the TextCodec family and their round trips (43_text_codec.md R142 to
R147). -/

namespace Sys2Proof.Machine

open Sys2Proof.Claims

/-! The scan. -/

theorem scan_of_wrong_length {s : State} (h : s.strlen.toNat ≠ 36) :
    scan s.strlen s.str = .error .invalidLength :=
  if_pos h

theorem scan_of_not_parsed {s : State} (len : s.strlen.toNat = 36) (h : ¬ ∃ b, Parsed s b) :
    scan s.strlen s.str = .error .invalidHex := by
  have shape : (!textShape s.str) = true := by
    rw [Bool.not_eq_true', ← Bool.not_eq_true]
    exact fun shape => h ⟨_, (parsed_iff s _).2 ⟨len, shape, rfl⟩⟩
  rw [scan, if_neg (not_not.2 len), if_pos shape]

theorem scan_of_parsed {s : State} {b : Identifier} (h : Parsed s b) :
    scan s.strlen s.str = .ok b := by
  obtain ⟨len, shape, bytes⟩ := (parsed_iff s b).1 h
  rw [scan, if_neg (not_not.2 len), shape, if_neg (by decide), bytes]

/-! The commands after the scan. -/

theorem exec_parse_of_scan_error {s : State} {c : Code} (h : scan s.strlen s.str = .error c) :
    exec .parse s = .next (s.fail c) := by
  rw [exec, execParse, h]

theorem exec_parse_of_check_fails {s : State} {b : Identifier} {c : Code}
    (h : scan s.strlen s.str = .ok b) (check : checkId b = some c) :
    exec .parse s = .next (s.fail c) := by
  simp only [exec, execParse, h, check]

theorem exec_parse_of_check_passes {s : State} {b : Identifier}
    (h : scan s.strlen s.str = .ok b) (check : checkId b = none) :
    exec .parse s = .next { s with id := b }.complete := by
  simp only [exec, execParse, h, check]

theorem exec_parseraw_of_scan_error {s : State} {c : Code} (h : scan s.strlen s.str = .error c) :
    exec .parseraw s = .next (s.fail c) := by
  rw [exec, execParseraw, h]

theorem exec_parseraw_of_scan_ok {s : State} {b : Identifier} (h : scan s.strlen s.str = .ok b) :
    exec .parseraw s = .next { s with id := b }.complete := by
  rw [exec, execParseraw, h]

/-- FORMAT leaves a text that reads as ID. -/
theorem exec_format_parsed (s : State) :
    ∃ t, exec .format s = .next t ∧ Parsed t s.id :=
  ⟨_, rfl, parsed_of_textOf rfl (textOf_formatId s.id)⟩

/-! The obligations. -/

/-- Settles O31: the failures are the scan's, then those of the check of the parsed bytes. -/
theorem parseReadsTheCanonicalText : Obligations.ParseReadsTheCanonicalText := by
  refine ⟨rfl, fun s len => ?_, fun s len bad => ?_, fun s b parsed => ?_⟩
  · exact ⟨_, exec_parse_of_scan_error (scan_of_wrong_length len),
      fail_failedWith .invalidLength s⟩
  · exact ⟨_, exec_parse_of_scan_error (scan_of_not_parsed len bad), fail_failedWith .invalidHex s⟩
  · have ok := scan_of_parsed parsed
    have check := checkId_eq b
    split_ifs at check ⊢ with badVersion badVariant
    · exact ⟨_, exec_parse_of_check_fails ok check, fail_failedWith .invalidVersion s⟩
    · exact ⟨_, exec_parse_of_check_fails ok check, fail_failedWith .invalidVariant s⟩
    · exact ⟨_, exec_parse_of_check_passes ok check, completed_complete rfl, rfl⟩

/-- Settles O32: the failures are the scan's alone. -/
theorem parserawReadsTheTextUnvalidated : Obligations.ParserawReadsTheTextUnvalidated := by
  refine ⟨rfl, fun s len => ?_, fun s len bad => ?_, fun s b parsed => ?_⟩
  · exact ⟨_, exec_parseraw_of_scan_error (scan_of_wrong_length len),
      fail_failedWith .invalidLength s⟩
  · exact ⟨_, exec_parseraw_of_scan_error (scan_of_not_parsed len bad),
      fail_failedWith .invalidHex s⟩
  · exact ⟨_, exec_parseraw_of_scan_ok (scan_of_parsed parsed), completed_complete rfl, rfl⟩

/-- Settles O33: STR becomes `formatId` of ID. -/
theorem formatWritesTheLowercaseText : Obligations.FormatWritesTheLowercaseText := by
  refine ⟨rfl, fun s => ⟨_, rfl, completed_complete rfl, rfl, textOf_formatId s.id,
    fun j h => ?_⟩⟩
  rcases octet_of_textOf (textOf_formatId s.id) ⟨j, h⟩ with isHyphen | ⟨v, digit⟩
  · exact .inr (.inr isHyphen)
  · exact or_assoc.1 (.inl (lowerDigit_range digit))

/-- Settles O34: the text of an identifier reads as that identifier, and is its only lowercase
text. -/
theorem textRoundTrips : Obligations.TextRoundTrips := by
  refine ⟨fun s => ?_, fun s valid => ?_, fun s b len text valid => ?_⟩
  · obtain ⟨t, run, parsed⟩ := exec_format_parsed s
    exact ⟨t, _, run, exec_parseraw_of_scan_ok (scan_of_parsed parsed), rfl, State.complete_code _⟩
  · obtain ⟨t, run, parsed⟩ := exec_format_parsed s
    exact ⟨t, _, run, exec_parse_of_check_passes (scan_of_parsed parsed) (checkId_eq_none valid),
      rfl, State.complete_code _⟩
  · exact ⟨_, _, exec_parse_of_check_passes (scan_of_parsed (parsed_of_textOf len text))
      (checkId_eq_none valid), rfl, rfl, textOf_unique (textOf_formatId b) text⟩

end Sys2Proof.Machine
end

section
/-! PROOFS. What the facade does to an identifier: its timestamp bytes, its payload and the message the
mask is taken from (10_state.md R21; 44_facade.md R160 to R164). -/

namespace Sys2Proof.Machine

open Sys2Proof.Claims

/-! The timestamp. -/

theorem timestampOf_byte (id : Identifier) {j : Nat} (h : j < 6) :
    (timestampOf id).extractLsb' (40 - 8 * j) 8 = id[j] := by
  unfold timestampOf
  interval_cases j
  all_goals repeat rw [BitVec.extractLsb'_append_eq_of_le (by decide)]
  · exact BitVec.extractLsb'_eq_self
  all_goals exact BitVec.extractLsb'_append_eq_right

theorem getElem_withTimestamp_of_lt (ts : BitVec 48) (id : Identifier) {j : Nat} (h : j < 6) :
    (withTimestamp ts id)[j] = ts.extractLsb' (40 - 8 * j) 8 := by
  simp only [withTimestamp, Vector.getElem_set]
  interval_cases j <;> rfl

theorem getElem_withTimestamp_of_ge (ts : BitVec 48) (id : Identifier) {j : Nat} (hj : j < 16)
    (h : 6 ≤ j) : (withTimestamp ts id)[j] = id[j] := by
  unfold withTimestamp
  iterate 6 rw [Vector.getElem_set_ne _ _ (by omega)]

/-! The payload. -/

theorem samePayload_trans {a b c : Identifier} (ab : SamePayload a b) (bc : SamePayload b c) :
    SamePayload a c := by
  obtain ⟨ab6, ab7, ab8, abTail⟩ := ab
  obtain ⟨bc6, bc7, bc8, bcTail⟩ := bc
  exact ⟨ab6.trans bc6, ab7.trans bc7, ab8.trans bc8,
    fun j h tail => (abTail j h tail).trans (bcTail j h tail)⟩

/-- An identifier is its timestamp, its payload, its version and its variant. -/
theorem identifier_ext_fields {a b : Identifier} (timestamp : ∀ j (h : j < 6), a[j] = b[j])
    (payload : SamePayload a b) (version : versionNibble a = versionNibble b)
    (variant : variantBits a = variantBits b) : a = b := by
  obtain ⟨randA, byte7, randB, tail⟩ := payload
  unfold versionNibble at version
  unfold variantBits at variant
  have byte6 : a[6] = b[6] := BitVec.eq_of_toNat_eq (by omega)
  have byte8 : a[8] = b[8] := BitVec.eq_of_toNat_eq (by omega)
  refine Vector.ext fun j h => ?_
  rcases (by omega : j < 6 ∨ j = 6 ∨ j = 7 ∨ j = 8 ∨ 9 ≤ j) with low | rfl | rfl | rfl | high
  · exact timestamp j low
  · exact byte6
  · exact byte7
  · exact byte8
  · exact tail j h high

/-! The message and the mask. -/

theorem invariantMessage_eq_messageM (id : Identifier) : invariantMessage id = messageM id := by
  have nibble : ∀ b : Byte, b &&& 0x0F#8 = BitVec.ofNat 8 (b.toNat % 16) := by decide
  have sixBits : ∀ b : Byte, b &&& 0x3F#8 = BitVec.ofNat 8 (b.toNat % 64) := by decide
  rw [invariantMessage, messageM, nibble, sixBits]

/-- The message holds payload bits alone (44_facade.md R160). -/
theorem messageM_congr {a b : Identifier} (payload : SamePayload a b) :
    messageM a = messageM b := by
  obtain ⟨randA, byte7, randB, tail⟩ := payload
  simp [messageM, randA, byte7, randB, tail]

/-- The mask's bytes are the low bytes of the digest. -/
theorem mask48_byte (id : Identifier) (k0 k1 : Word64) (j : Nat) :
    (mask48 id k0 k1).extractLsb' (40 - 8 * j) 8 =
      (siphash24 (invariantMessage id) k0 k1).extractLsb' (40 - 8 * j) 8 :=
  BitVec.extractLsb'_extractLsb'_of_le (by omega)

/-! The new identifier. -/

/-- Of the bytes other than 6 and 8 the transformation writes the timestamp's alone. -/
theorem getElem_transformId_of_ne (v : BitVec 4) (m : BitVec 48) (id : Identifier) {j : Nat}
    (hj : j < 16) (h6 : j ≠ 6) (h8 : j ≠ 8) :
    (transformId v m id)[j] = (withTimestamp (timestampOf id ^^^ m) id)[j] := by
  rw [transformId, getElem_withVariant_of_ne _ hj h8, getElem_withVersion_of_ne _ _ hj h6]

theorem getElem_transformId_timestamp (v : BitVec 4) (m : BitVec 48) (id : Identifier) {j : Nat}
    (h : j < 6) :
    (transformId v m id)[j] = id[j] ^^^ m.extractLsb' (40 - 8 * j) 8 := by
  rw [getElem_transformId_of_ne v m id (by omega) (by omega) (by omega),
    getElem_withTimestamp_of_lt _ _ h, BitVec.extractLsb'_xor, timestampOf_byte id h]

@[simp] theorem versionNibble_transformId (v : BitVec 4) (m : BitVec 48) (id : Identifier) :
    versionNibble (transformId v m id) = v.toNat := by
  rw [transformId, versionNibble_withVariant, versionNibble_withVersion]

@[simp] theorem variantBits_transformId (v : BitVec 4) (m : BitVec 48) (id : Identifier) :
    variantBits (transformId v m id) = 2 :=
  variantBits_withVariant _

theorem samePayload_transformId (v : BitVec 4) (m : BitVec 48) (id : Identifier) :
    SamePayload (transformId v m id) id := by
  have kept : ∀ j (hj : j < 16), 6 ≤ j → j ≠ 6 → j ≠ 8 → (transformId v m id)[j] = id[j] :=
    fun j hj ge h6 h8 => (getElem_transformId_of_ne v m id hj h6 h8).trans
      (getElem_withTimestamp_of_ge _ id hj ge)
  refine ⟨?_, kept 7 (by decide) (by decide) (by decide) (by decide), ?_,
    fun j hj tail => kept j hj (by omega) (by omega) (by omega)⟩
  · rw [transformId, getElem_withVariant_of_ne _ (by decide) (by decide), withVersion_low_nibble,
      getElem_withTimestamp_of_ge _ id (by decide) (by decide)]
  · rw [transformId, withVariant_low_bits, getElem_withVersion_of_ne _ _ (by decide) (by decide),
      getElem_withTimestamp_of_ge _ id (by decide) (by decide)]

end Sys2Proof.Machine
end

section
/-! PROOFS. MASK, ENCODE and DECODE and the laws of the facade (44_facade.md R161 to R167). The laws
follow from what one ENCODE or DECODE leaves, `Transformed`: the payload it keeps is all the next mask
depends on, so two transformations in a row XOR the timestamp with the same bits. -/

namespace Sys2Proof.Machine

open Sys2Proof.Claims

/-! What one command leaves. -/

theorem computeMask_maskComputed (s : State) : MaskComputed s s.computeMask := by
  rw [MaskComputed, ← invariantMessage_eq_messageM]
  exact ⟨rfl, rfl, rfl⟩

/-- What ENCODE and DECODE share: the state both answer, at the version they write. -/
theorem transformed_transformId (v : BitVec 4) (s : State) :
    Transformed v.toNat s
      { s.computeMask with id := transformId v (mask48 s.id s.key0 s.key1) s.id }.complete := by
  refine ⟨completed_complete rfl, rfl, computeMask_maskComputed s, fun j h => ?_,
    versionNibble_transformId _ _ _, variantBits_transformId _ _ _, samePayload_transformId _ _ _⟩
  exact (getElem_transformId_timestamp _ _ _ h).trans
    (congrArg (s.id[j] ^^^ ·) (mask48_byte s.id s.key0 s.key1 j))

theorem exec_encode_transformed (s : State) : ∃ t, exec .encode s = .next t ∧ Transformed 4 s t :=
  ⟨_, rfl, transformed_transformId 4#4 s⟩

theorem exec_decode_transformed (s : State) : ∃ t, exec .decode s = .next t ∧ Transformed 7 s t :=
  ⟨_, rfl, transformed_transformId 7#4 s⟩

/-! What two transformations in a row leave. -/

/-- States of the same key and payload have the same mask hash. -/
theorem maskComputed_congr {s s' t t' : State} (key0 : s.key0 = s'.key0) (key1 : s.key1 = s'.key1)
    (payload : SamePayload s.id s'.id) (mask : MaskComputed s t) (mask' : MaskComputed s' t') :
    t.digest = t'.digest ∧ t.lanes = t'.lanes := by
  obtain ⟨digest, lanes, -⟩ := mask
  obtain ⟨digest', lanes', -⟩ := mask'
  rw [digest, digest', lanes, lanes', messageM_congr payload, key0, key1]
  exact ⟨rfl, rfl⟩

/-- The second transformation takes the mask off the timestamp again. -/
theorem transformed_twice {v w : Nat} {s t u : State} (first : Transformed v s t)
    (second : Transformed w t u) :
    (∀ j (h : j < 6), u.id[j] = s.id[j]) ∧ SamePayload u.id s.id := by
  obtain ⟨-, frame, mask, timestamp, -, -, payload⟩ := first
  obtain ⟨-, -, mask', timestamp', -, -, payload'⟩ := second
  have key0 : t.key0 = s.key0 := by rw [frame]
  have key1 : t.key1 = s.key1 := by rw [frame]
  have digest : u.digest = t.digest := (maskComputed_congr key0 key1 payload mask' mask).1
  refine ⟨fun j h => ?_, samePayload_trans payload' payload⟩
  rw [timestamp' j h, timestamp j h, digest, BitVec.xor_assoc, BitVec.xor_self, BitVec.xor_zero]

/-- Two transformations restore ID when and only when it had the markers the second one writes. -/
theorem transformed_twice_eq_iff {v w : Nat} {s t u : State} (first : Transformed v s t)
    (second : Transformed w t u) :
    u.id = s.id ↔ versionNibble s.id = w ∧ variantBits s.id = 2 := by
  obtain ⟨timestamp, payload⟩ := transformed_twice first second
  obtain ⟨-, -, -, -, version, variant, -⟩ := second
  constructor
  · intro same
    rw [← same]
    exact ⟨version, variant⟩
  · rintro ⟨hadVersion, hadVariant⟩
    exact identifier_ext_fields timestamp payload (version.trans hadVersion.symm)
      (variant.trans hadVariant.symm)

/-! The obligations. -/

/-- Settles O35: RES is the mask, the low 48 bits of the digest. -/
theorem maskComputesTheMask : Obligations.MaskComputesTheMask := by
  refine ⟨rfl, fun s => ⟨_, rfl, completed_complete rfl, rfl, computeMask_maskComputed s, ?_⟩⟩
  change ((mask48 s.id s.key0 s.key1).setWidth 64).toNat = _
  rw [BitVec.toNat_setWidth_of_le (by decide), mask48, BitVec.extractLsb'_toNat,
    Nat.shiftRight_zero]
  rfl

/-- Settles O36: ID becomes `transformId 4` of itself. -/
theorem encodeMasksTheTimestamp : Obligations.EncodeMasksTheTimestamp :=
  ⟨rfl, exec_encode_transformed⟩

/-- Settles O37: ID becomes `transformId 7` of itself. -/
theorem decodeUnmasksTheTimestamp : Obligations.DecodeUnmasksTheTimestamp :=
  ⟨rfl, exec_decode_transformed⟩

/-- Settles O38: both orders are two transformations in a row. -/
theorem facadeRoundTrip : Obligations.FacadeRoundTrip := by
  refine ⟨fun s => ?_, fun s version variant => ?_⟩
  · obtain ⟨t, runEncode, encoded⟩ := exec_encode_transformed s
    obtain ⟨u, runDecode, decoded⟩ := exec_decode_transformed t
    obtain ⟨timestamp, payload⟩ := transformed_twice encoded decoded
    have restored := transformed_twice_eq_iff encoded decoded
    obtain ⟨-, -, -, -, version, variant, -⟩ := decoded
    exact ⟨t, u, runEncode, runDecode, timestamp, payload, version, variant, restored⟩
  · obtain ⟨t, runDecode, decoded⟩ := exec_decode_transformed s
    obtain ⟨u, runEncode, encoded⟩ := exec_encode_transformed t
    exact ⟨t, u, runDecode, runEncode,
      (transformed_twice_eq_iff decoded encoded).2 ⟨version, variant⟩⟩

/-- Settles O39: what ENCODE leaves is a valid identifier of version 4. -/
theorem facadeAlwaysValidates : Obligations.FacadeAlwaysValidates := by
  intro s
  obtain ⟨t, run, -, -, -, -, version, variant, payload⟩ := exec_encode_transformed s
  exact ⟨t, _, _, run, payload,
    exec_validate_of_passes (checkId_eq_none ⟨.inl version, variant⟩), State.complete_code t, rfl,
    BitVec.eq_of_toNat_eq ((versionOf_setWidth_toNat t.id).trans version)⟩

/-- Settles O40: the mask hash is that of the key and the payload, and RES is cut from its digest. -/
theorem maskIgnoresTimestampAndMarkers : Obligations.MaskIgnoresTimestampAndMarkers := by
  intro s s' key0 key1 payload
  obtain ⟨t, run, -, -, mask, res⟩ := maskComputesTheMask.2 s
  obtain ⟨t', run', -, -, mask', res'⟩ := maskComputesTheMask.2 s'
  obtain ⟨digest, lanes⟩ := maskComputed_congr key0 key1 payload mask mask'
  exact ⟨t, t', run, run', BitVec.eq_of_toNat_eq (by rw [res, res', digest]), digest, lanes⟩

/-- Settles O41: ENCODE twice is two transformations in a row. -/
theorem encodeTwiceRestoresTheTimestamp : Obligations.EncodeTwiceRestoresTheTimestamp := by
  intro s
  obtain ⟨t, run, first⟩ := exec_encode_transformed s
  obtain ⟨u, run', second⟩ := exec_encode_transformed t
  have timestamp := (transformed_twice first second).1
  obtain ⟨-, -, -, -, version, -, -⟩ := second
  exact ⟨t, u, run, run', timestamp, version⟩

end Sys2Proof.Machine
end

section
/-! PROOFS. NOP and the loads (45_control.md R180, R183 to R186). A wide read recurs on the bytes above
its first, the little-endian value of 20_memory.md R52 on the bytes below its last; so the value is
first split at its first byte too. -/

namespace Sys2Proof.Machine

open Sys2Proof.Claims

/-! The little-endian value of window bytes. -/

/-- The value as a read forms it: the first byte below the value of the rest. -/
theorem windowValue_succ_low (s : State) (a n : Nat) :
    windowValue s a (n + 1) = (rbyte s a).toNat + windowValue s (a + 1) n * 256 := by
  induction n with
  | zero => simp [windowValue]
  | succ n ih =>
    rw [windowValue, ih, windowValue, Nat.add_assoc a 1 n, Nat.add_comm 1 n]
    ring

theorem windowValue_lt (s : State) (a n : Nat) : windowValue s a n < 2 ^ (8 * n) := by
  induction n with
  | zero => exact Nat.one_pos
  | succ n ih =>
    have byte := Nat.mul_le_mul_right (2 ^ (8 * n)) (Nat.le_of_lt_succ (rbyte s (a + n)).isLt)
    rw [windowValue, Nat.mul_succ, pow_add]
    omega

theorem windowValue_eq_zero {s : State} {a n : Nat} (h : ∀ j, j < n → rbyte s (a + j) = 0#8) :
    windowValue s a n = 0 := by
  induction n with
  | zero => rfl
  | succ n ih => simp [windowValue, ih fun j hj => h j (by omega), h n (by omega)]

/-- A read of at most eight bytes is their little-endian value, zero-extended (20_memory.md R52). -/
theorem memRead_toNat (s : State) {n : Nat} (a : Nat) (h : n ≤ 8) :
    (memRead s a n).toNat = windowValue s a n := by
  induction n generalizing a with
  | zero => rfl
  | succ n ih =>
    have rest := ih (a + 1) (by omega)
    have short : (memRead s (a + 1) n).toNat < 2 ^ 56 := by
      rw [rest]
      exact (windowValue_lt s _ n).trans_le (Nat.pow_le_pow_right (by decide) (by omega))
    rw [memRead, or_shift_toNat _ _ short, rest, windowValue_succ_low]

/-! Loads. -/

/-- The headers with WE = 0 are the loads, by SIZE (30_encoding.md R82, R87). -/
theorem decodeRequest_loads (off : Byte) (d : Word64) :
    decodeRequest ⟨0b000#3 ++ off, d⟩ = .lb off ∧ decodeRequest ⟨0b001#3 ++ off, d⟩ = .lh off ∧
    decodeRequest ⟨0b010#3 ++ off, d⟩ = .lw off ∧ decodeRequest ⟨0b011#3 ++ off, d⟩ = .ld off := by
  refine ⟨?_, ?_, ?_, ?_⟩
  · exact show decodeRequest ⟨busHeader false 0#2 off, d⟩ = _ by simp [decodeRequest]
  · exact show decodeRequest ⟨busHeader false 1#2 off, d⟩ = _ by simp [decodeRequest]
  · exact show decodeRequest ⟨busHeader false 2#2 off, d⟩ = _ by simp [decodeRequest]
  · exact show decodeRequest ⟨busHeader false 3#2 off, d⟩ = _ by simp [decodeRequest]

theorem readWindow_of_aligned {off : Byte} {n : Nat} (hn : n ≤ 8) (h : off.toNat % n = 0)
    (s : State) : ∃ v, readWindow off n s = .next { s with rdata := some v } ∧
      v.toNat = windowValue s off.toNat n := by
  rcases readWindow_cases off n s with ⟨-, e⟩ | ⟨misaligned, -⟩
  · exact ⟨_, e, memRead_toNat s _ hn⟩
  · exact absurd h misaligned

/-- What the loads of two, four and eight bytes share. -/
theorem readWindow_answers (off : Byte) {n : Nat} (hn : n ≤ 8) (s : State) :
    if off.toNat % n ≠ 0 then readWindow off n s = .fault .busError
    else ∃ v, readWindow off n s = .next { s with rdata := some v } ∧
      v.toNat = windowValue s off.toNat n := by
  rcases readWindow_cases off n s with ⟨h, -⟩ | ⟨h, e⟩
  · rw [if_neg (not_not.2 h)]
    exact readWindow_of_aligned hn h s
  · rwa [if_pos h]

/-- An aligned load of bytes that all read 0 answers 0. -/
theorem readWindow_of_reads_zero {off : Byte} {n : Nat} {s : State} (hn : n ≤ 8)
    (h : off.toNat % n = 0) (zero : ∀ j, j < n → rbyte s (off.toNat + j) = 0#8) :
    readWindow off n s = .next { s with rdata := some 0#64 } := by
  obtain ⟨v, e, hv⟩ := readWindow_of_aligned hn h s
  rw [windowValue_eq_zero zero] at hv
  rw [e, BitVec.eq_of_toNat_eq (y := 0#64) hv]

/-- The eight bytes at 0x38: STATUS as it is read, STRLEN, SLEN and five that read 0. -/
theorem windowValue_status (s : State) :
    windowValue s 0x38 8 = (if s.err then 128 else 0) + s.code.toNat + s.strlen.toNat * 2 ^ 8 +
      s.slen.toNat * 2 ^ 16 := by
  have above : windowValue s 0x3B 5 = 0 :=
    windowValue_eq_zero fun j hj => rbyte_reserved s _ (by omega)
  rw [windowValue_succ_low, windowValue_succ_low, windowValue_succ_low, above, rbyte_status,
    rbyte_strlen, rbyte_slen, statusRead_toNat, State.err, State.code]
  ring

/-- Settles O12: each load is a window read of its width, CMD and the key read 0, and the double word
at 0x38 is STATUS's. -/
theorem loadsAnswerTheWindowBytes : Obligations.LoadsAnswerTheWindowBytes := by
  refine ⟨decodeRequest_loads, fun s off => ⟨_, exec_lb off s, ?_⟩,
    fun s off => readWindow_answers off (by decide) s,
    fun s off => readWindow_answers off (by decide) s,
    fun s off => readWindow_answers off (by decide) s, fun s => ?_, fun s => ⟨?_, ?_⟩, fun s => ?_⟩
  · exact BitVec.toNat_setWidth_of_le (by decide)
  · exact readWindow_of_reads_zero (off := 0x3C#8) (n := 4) (by decide) rfl
      fun j _ => rbyte_reserved s (0x3C + j) (by omega)
  · exact readWindow_of_reads_zero (off := 0x10#8) (n := 8) (by decide) rfl
      fun j _ => rbyte_key s (0x10 + j) (by omega) (by omega)
  · exact readWindow_of_reads_zero (off := 0x18#8) (n := 8) (by decide) rfl
      fun j _ => rbyte_key s (0x18 + j) (by omega) (by omega)
  · rw [← windowValue_status s]
    exact readWindow_of_aligned (off := 0x38#8) (n := 8) (by decide) rfl s

/-! NOP. -/

/-- Settles O18: NOP is a completion and no more. -/
theorem nopOnlyReportsSuccess : Obligations.NopOnlyReportsSuccess :=
  ⟨rfl, fun _ => ⟨_, rfl, completed_complete rfl, rfl⟩, ⟨_, rfl⟩, ⟨_, rfl⟩⟩

end Sys2Proof.Machine
end

section
/-! PROOFS. How a command ends: it completes or fails precisely, with a code of its own
(60_exceptions.md R201 to R203). -/

namespace Sys2Proof.Machine

open Sys2Proof.Claims

theorem codeBits_pos {c : Code} (h : c ≠ .ok) : 1 ≤ (codeBits c).toNat := by
  cases c
  case ok => contradiction
  all_goals decide

/-- Settles O42: both ends of a command, in the claims' terms. -/
theorem commandsCompleteOrFailPrecisely : Obligations.CommandsCompleteOrFailPrecisely := by
  intro i s hi
  rcases exec_command_cases hi s with ⟨u, run, status, -⟩ | ⟨c, failure, run⟩
  · exact ⟨_, run, .inl (completed_complete status)⟩
  · exact ⟨_, run, .inr ⟨_, codeBits_pos failure, codeBits_le c, fail_failedWith c s⟩⟩

/-! The codes of the two checks, as the lists of the commands that make just one of them. -/

theorem checkId_mem_failureCodes {id : Identifier} {c : Code} (h : checkId id = some c) :
    (codeBits c).toNat ∈ failureCodes .validate := by
  rw [checkId_eq] at h
  split_ifs at h <;> cases h <;> decide

theorem scan_mem_failureCodes {strlen : Byte} {t : Text} {c : Code}
    (h : scan strlen t = .error c) : (codeBits c).toNat ∈ failureCodes .parseraw := by
  unfold scan at h
  split_ifs at h <;> cases h <;> decide

/-- PARSE makes both checks. -/
theorem failureCodes_parse :
    failureCodes .parse = failureCodes .parseraw ++ failureCodes .validate := rfl

theorem fail_code_mem {c : Code} {codes : List Nat} (h : (codeBits c).toNat ∈ codes) (s : State) :
    (s.fail c).code.toNat ∈ codes := by
  rwa [State.fail_code]

/-- Settles O43: SIPHASH fails for its length, the checking commands with a code of their checks, and
the other twelve complete. -/
theorem eachCommandFailsOnlyWithItsCodes : Obligations.EachCommandFailsOnlyWithItsCodes := by
  intro i s hi
  cases i
  case siphash len =>
    by_cases long : len > 32
    · exact ⟨_, if_pos long, .inr (fail_code_mem (List.mem_singleton_self 6) s)⟩
    · exact ⟨_, if_neg long, .inl (State.complete_code _)⟩
  case validate =>
    cases check : checkId s.id with
    | none => exact ⟨_, exec_validate_of_passes check, .inl (State.complete_code _)⟩
    | some c =>
      exact ⟨_, exec_validate_of_fails check, .inr (fail_code_mem (checkId_mem_failureCodes check) s)⟩
  case parse =>
    rw [failureCodes_parse]
    cases text : scan s.strlen s.str with
    | error c =>
      exact ⟨_, exec_parse_of_scan_error text,
        .inr (fail_code_mem (List.mem_append_left _ (scan_mem_failureCodes text)) s)⟩
    | ok b =>
      cases check : checkId b with
      | none => exact ⟨_, exec_parse_of_check_passes text check, .inl (State.complete_code _)⟩
      | some c =>
        exact ⟨_, exec_parse_of_check_fails text check,
          .inr (fail_code_mem (List.mem_append_right _ (checkId_mem_failureCodes check)) s)⟩
  case parseraw =>
    cases text : scan s.strlen s.str with
    | error c =>
      exact ⟨_, exec_parseraw_of_scan_error text,
        .inr (fail_code_mem (scan_mem_failureCodes text) s)⟩
    | ok b => exact ⟨_, exec_parseraw_of_scan_ok text, .inl (State.complete_code _)⟩
  case lb | lh | lw | ld | sb | sh | sw | sd => contradiction
  all_goals exact ⟨_, rfl, .inl (State.complete_code _)⟩

end Sys2Proof.Machine
end

section
/-! PROOFS. Safe inputs run through: every step of a safe state answers with a safe state and takes one
input, as long as there is one (60_exceptions.md R216; 93_implementation_defined.md S9, S10). -/

namespace Sys2Proof.Machine

/-! A level of the reset input. -/

@[simp] theorem State.driveReset_inputs (asserted : Bool) (s : State) :
    (s.driveReset asserted).inputs = s.inputs := by
  cases asserted <;> rfl

@[simp] theorem State.driveReset_inReset (asserted : Bool) (s : State) :
    (s.driveReset asserted).inReset = asserted := by
  cases asserted <;> rfl

theorem step_resetLine {s : State} {asserted : Bool} {rest : List Input}
    (queue : s.inputs = .resetLine asserted :: rest) :
    step s = .next ((s.withInputs rest).driveReset asserted) := by
  simp only [step, State.nextAction, queue]

/-- While reset is asserted the first level among the inputs passes the accesses that wait. -/
theorem step_access_held {s : State} {r : Request} {rest others : List Input} {asserted : Bool}
    (held : s.inReset = true) (queue : s.inputs = .access r :: rest)
    (level : takeReset s.inputs = some (asserted, others)) :
    step s = .next ((s.withInputs others).driveReset asserted) := by
  rw [queue] at level
  simp only [step, State.nextAction, queue, held, level, if_true]

/-- Taking the first level takes one input and changes neither the accesses nor the last level. -/
theorem driveReset_safe {s : State} (safe : s.Safe) {asserted : Bool} {others : List Input}
    (level : takeReset s.inputs = some (asserted, others)) :
    ((s.withInputs others).driveReset asserted).Safe ∧
    ((s.withInputs others).driveReset asserted).inputs.length = s.inputs.length - 1 := by
  obtain ⟨aligned, ends⟩ := safe
  obtain ⟨length, -, accesses, final⟩ := takeReset_some level
  refine ⟨⟨fun r hr => aligned r (accesses r (by simpa using hr)), ?_⟩, ?_⟩
  · simpa [final s.inReset] using ends
  · simp only [State.driveReset_inputs, State.withInputs_inputs]
    omega

/-! A step. -/

theorem exec_answers_of_aligned {i : Instr} (h : misaligned i = false) (s : State) :
    ∃ t, exec i s = .next t := by
  simpa [h] using onlyMisalignedAccessesStop i s

/-- Out of reset, an aligned access takes itself off the inputs and leaves the rest of them safe. -/
theorem step_access_safe {s : State} (safe : s.Safe) (released : s.inReset = false) {r : Request}
    {rest : List Input} (queue : s.inputs = .access r :: rest) :
    ∃ t, step s = .next t ∧ t.Safe ∧ t.inputs.length = s.inputs.length - 1 := by
  obtain ⟨aligned, ends⟩ := safe
  rw [queue] at aligned ends
  obtain ⟨t, run⟩ := exec_answers_of_aligned (aligned r List.mem_cons_self) (s.withInputs rest)
  obtain ⟨inReset, inputs⟩ := exec_keeps_inputs run
  refine ⟨t, (step_access released queue).trans run, ⟨?_, ?_⟩, ?_⟩
  · rw [inputs]
    exact fun q hq => aligned q (List.mem_cons_of_mem _ hq)
  · rw [inReset, inputs]
    exact ends
  · rw [inputs, queue]
    rfl

theorem step_safe {s : State} (safe : s.Safe) :
    ∃ t, step s = .next t ∧ t.Safe ∧ t.inputs.length = s.inputs.length - 1 := by
  rcases queue : s.inputs with _ | ⟨⟨r⟩ | asserted, rest⟩ <;> rw [← queue]
  case nil => exact ⟨s, step_idle queue, safe, by rw [queue]; rfl⟩
  case cons.resetLine =>
    exact ⟨_, step_resetLine queue, driveReset_safe safe (by rw [queue]; rfl)⟩
  case cons.access =>
    cases held : s.inReset with
    | false => exact step_access_safe safe held queue
    | true =>
      cases level : takeReset s.inputs with
      | none =>
        have asserted : finalLevel s.inReset s.inputs = true :=
          (takeReset_none level _).trans held
        cases asserted.symm.trans safe.2
      | some found => exact ⟨_, step_access_held held queue level, driveReset_safe safe level⟩

/-! A run. -/

/-- Any number of steps answers, takes as many inputs where there are as many, and stays safe. -/
theorem run_safe (k : Nat) : ∀ {s : State}, s.Safe →
    ∃ t, Host.Core.run core k s = .next t ∧ t.Safe ∧ t.inputs.length = s.inputs.length - k := by
  induction k with
  | zero => exact fun safe => ⟨_, rfl, safe, rfl⟩
  | succ k ih =>
    intro s safe
    obtain ⟨t, first, safe', length⟩ := step_safe safe
    obtain ⟨u, run, safe'', length'⟩ := ih safe'
    exact ⟨u, (run_succ_of_step first k).trans run, safe'', by omega⟩

/-- Settles O50: after as many steps as inputs none is left, and there a safe state is out of reset. -/
theorem safeInputsRunThrough : Obligations.SafeInputsRunThrough := by
  intro s safe
  refine ⟨?_, fun k => ?_⟩
  · obtain ⟨t, run, ⟨-, ends⟩, length⟩ := run_safe s.inputs.length safe
    have empty : t.inputs = [] := List.eq_nil_of_length_eq_zero (by omega)
    rw [empty] at ends
    exact ⟨t, run, empty, ends⟩
  · obtain ⟨t, run, -⟩ := run_safe k safe
    exact ⟨t, run⟩

end Sys2Proof.Machine
end

section
/-! PROOFS. The reset input: what a step in reset does with the levels to come and the accesses that
wait (70_reset_and_hazards.md R230; 93_implementation_defined.md S10; log entry 3). -/

namespace Sys2Proof.Machine

open Sys2Proof.Claims

/-! A level of the reset input. -/

theorem State.driveReset_true_allRegistersZero (s : State) :
    AllRegistersZero (s.driveReset true) :=
  reset_allRegistersZero

/-- A level changes no register, or gives every register its reset value. -/
theorem State.driveReset_registers (asserted : Bool) (rest : List Input) (s : State) :
    SameRegisters s ((s.withInputs rest).driveReset asserted) ∨
    AllRegistersZero ((s.withInputs rest).driveReset asserted) := by
  cases asserted with
  | false => exact .inl rfl
  | true => exact .inr (State.driveReset_true_allRegistersZero _)

@[simp] theorem State.driveReset_rdata (asserted : Bool) (s : State) :
    (s.driveReset asserted).rdata = s.rdata := by
  cases asserted <;> rfl

/-! A step in reset. -/

/-- In reset the first level to come takes effect, whether or not accesses wait before it. -/
theorem step_of_takeReset_some {s : State} {asserted : Bool} {others : List Input}
    (held : s.inReset = true) (level : takeReset s.inputs = some (asserted, others)) :
    step s = .next ((s.withInputs others).driveReset asserted) := by
  rcases queue : s.inputs with _ | ⟨⟨r⟩ | a, rest⟩
  case nil => simp [queue, takeReset] at level
  case cons.access => exact step_access_held held queue level
  case cons.resetLine =>
    rw [queue] at level
    cases level
    exact step_resetLine queue

/-- An access waits in reset and no level is to come. -/
theorem step_of_takeReset_none {s : State} {r : Request} {rest : List Input}
    (held : s.inReset = true) (queue : s.inputs = .access r :: rest)
    (level : takeReset s.inputs = none) : step s = .fault .heldInReset := by
  rw [queue] at level
  simp only [step, State.nextAction, queue, held, level, if_true]

/-- Settles O2: in reset a step takes the first level of the reset input, which keeps every access, or
is stuck on an access, or is idle. -/
theorem resetInputClearsRegistersAndHoldsAccesses :
    Obligations.ResetInputClearsRegistersAndHoldsAccesses := by
  refine ⟨fun s rest queue => ⟨_, step_resetLine queue,
    State.driveReset_true_allRegistersZero _, State.driveReset_inReset true _⟩, fun s held => ?_⟩
  cases level : takeReset s.inputs with
  | some found =>
    obtain ⟨asserted, others⟩ := found
    obtain ⟨-, accesses, -⟩ := takeReset_some level
    exact .inr ⟨_, step_of_takeReset_some held level, State.driveReset_registers asserted others s,
      by simpa using accesses, by simp⟩
  | none =>
    rcases queue : s.inputs with _ | ⟨⟨r⟩ | asserted, rest⟩
    case nil => exact .inr ⟨s, step_idle queue, .inl rfl, by rw [queue], rfl⟩
    case cons.access => exact .inl (step_of_takeReset_none held queue level)
    case cons.resetLine => simp [queue, takeReset] at level

/-- Settles O3: the first level found among the inputs is the release behind the accesses, and among
accesses alone there is none. -/
theorem heldAccessesWaitForRelease : Obligations.HeldAccessesWaitForRelease := by
  have accesses {r : Request} {pre : List Input} (h : ∀ i ∈ pre, Input.isAccess i = true) :
      ∀ i ∈ .access r :: pre, Input.isAccess i = true := List.forall_mem_cons.2 ⟨rfl, h⟩
  constructor
  · intro s r pre post held waiting queue
    have level : takeReset s.inputs = some (false, .access r :: pre ++ post) := by
      rw [queue]
      exact takeReset_pre _ post false (accesses waiting)
    exact step_of_takeReset_some held level
  · intro s r pre held waiting queue
    have level : takeReset s.inputs = none := by
      rw [queue]
      exact takeReset_accesses _ (accesses waiting)
    exact step_of_takeReset_none held queue level

end Sys2Proof.Machine
end

section
/-! PROOFS. The writers' column of the register table, command by command (10_state.md section 1). -/

namespace Sys2Proof.Machine

open Sys2Proof.Claims

/-- Settles O45: every command answers a state related to the first by `WritesOnlyListed`, and the parts
of the claim are the fields of that relation. -/
theorem onlyListedCommandsWriteARegister : Obligations.OnlyListedCommandsWriteARegister := by
  intro i s hi
  obtain ⟨t, run, ⟨frame, id, digest, res, hash, text⟩⟩ := exec_command_writesOnlyListed hi s
  exact ⟨t, run, frame, id, digest, res, hash, text⟩

end Sys2Proof.Machine
end
